-- ==== Sys2Proof/Word.lean ====
section
/-!
DEFINITION. The two word widths of the CHI32 core and its two rotate-amount fields (R6, R7, R40, R41).

Every value is a raw bit pattern of a fixed width, bit 0 the least significant (R7, R8). The primitives of R10 and
R11 are the operations of `BitVec` and are used under their usual symbols: add_w `+`, sub_w `-`, mul_w `*`,
not_w `~~~`, and_w `&&&`, or_w `|||`, xor_w `^^^`, shl_w `<<<`, lshr_w `>>>`, zext_N `setWidth N` upwards,
trunc_N `setWidth N` downwards, v[hi:lo] `extractLsb' lo (hi - lo + 1)`, concatenation `++` with the first operand
in the high bits. All of them are total and reduce modulo 2^w, so nothing saturates, traps or sets a flag (R9, R106).
-/

namespace Sys2Proof

/-- A 32-bit pattern: HashState, Output, a lane, a window (R23, R24). -/
abbrev Word32 := BitVec 32

/-- A 64-bit pattern: Selector, Index, CombinedState, an anchor, offset, pointer or accumulator (R23, R24). -/
abbrev Word64 := BitVec 64

/-- The rotate-amount field of ROTL32, 5 bits, so 0 to 31 and nothing larger (R57). -/
abbrev Amount32 := BitVec 5

/-- The rotate-amount field of ROTL64, 6 bits, so 0 to 63 and nothing larger (R57). -/
abbrev Amount64 := BitVec 6

end Sys2Proof
end

