-- ==== Sys2Proof/Syntax.lean ====
section
/-!
DEFINITION. The five operations of the CHI32 core, one constructor per row of spec/opcode_table.json (R3, R38).

A constructor carries the operands with the widths of the operation's format (R40 to R44), in the order in which the
operand word lays them out from its high bits down (R39).
-/

namespace Sys2Proof

/-- An evaluation of one of the five operations (R38). -/
inductive Instr where
  /-- ROTL32, format R32: rotate `x` left by `k` (R40, R54). -/
  | rotl32 (k : Amount32) (x : Word32)
  /-- ROTL64, format R64: rotate `x` left by `k` (R41, R55). -/
  | rotl64 (k : Amount64) (x : Word64)
  /-- UPDATE_HASH, format H: mix `value` into the running hash `previousHash` (R42, R60). -/
  | updateHash (previousHash : Word32) (value : Word32)
  /-- COMBINE, format SI64: fold selector and index into the combined state (R43, R71). -/
  | combine (selector : Word64) (index : Word64)
  /-- DERIVE, format SI32: the block's own function (R44, R85). -/
  | derive (selector : Word64) (index : Word64)
deriving DecidableEq, Repr

end Sys2Proof
end

