-- ==== Sys2Proof/Machine/Operation.lean ====
section
/-!
DEFINITION. The operations by name, and the operand word on the input lines of a unit (R38 to R44, R53).

No field of a word selects an operation: which one is evaluated is fixed by which unit the wires lead into (R38). So an
operand word is a value of the type `OperandWord`, whose CONSTRUCTOR is the unit the lines belong to and whose width is
exactly that unit's; a bit outside the word has nowhere to stand (R47, R57).
-/

namespace Sys2Proof

/-- The names of the five operations, leaf to root (R38). -/
inductive Operation where
  | rotl32
  | rotl64
  | updateHash
  | combine
  | derive
deriving DecidableEq, Repr

/-- The four units (R2). -/
inductive UnitName where
  | bitRotate
  | hashMixer
  | cascadeInterleave
  | extract
deriving DecidableEq, Repr

/-- Width of the operand word: column `width` of opcode_table.json (R40 to R44, R53). -/
def Operation.width : Operation → Nat
  | .rotl32 => 37
  | .rotl64 => 70
  | .updateHash => 64
  | .combine => 128
  | .derive => 128

/-- Width of the result word: column `result_width` (R40 to R44, R53). -/
def Operation.resultWidth : Operation → Nat
  | .rotl32 => 32
  | .rotl64 => 64
  | .updateHash => 32
  | .combine => 64
  | .derive => 32

/-- The mnemonic of the operation: column `mnemonic` (R38). -/
def Operation.mnemonic : Operation → String
  | .rotl32 => "ROTL32"
  | .rotl64 => "ROTL64"
  | .updateHash => "UPDATE_HASH"
  | .combine => "COMBINE"
  | .derive => "DERIVE"

/-- The unit whose entry point the operation is: column `unit` (R2, R38). -/
def Operation.unit : Operation → UnitName
  | .rotl32 => .bitRotate
  | .rotl64 => .bitRotate
  | .updateHash => .hashMixer
  | .combine => .cascadeInterleave
  | .derive => .extract

/-- Only DERIVE is reachable from the block's ports: column `reachable_from_ports` (R22, R38). -/
def Operation.reachableFromPorts : Operation → Bool
  | .rotl32 => false
  | .rotl64 => false
  | .updateHash => false
  | .combine => false
  | .derive => true

/-- The operation an evaluation belongs to. -/
def Instr.operation : Instr → Operation
  | .rotl32 _ _ => .rotl32
  | .rotl64 _ _ => .rotl64
  | .updateHash _ _ => .updateHash
  | .combine _ _ => .combine
  | .derive _ _ => .derive

/-- The operand word presented on one unit's input lines (R39 to R44). -/
inductive OperandWord where
  /-- Format R32, 37 bits (R40). -/
  | rotl32 (w : BitVec 37)
  /-- Format R64, 70 bits (R41). -/
  | rotl64 (w : BitVec 70)
  /-- Format H, 64 bits (R42). -/
  | updateHash (w : BitVec 64)
  /-- Format SI64, 128 bits (R43). -/
  | combine (w : BitVec 128)
  /-- Format SI32, 128 bits (R44). -/
  | derive (w : BitVec 128)
deriving DecidableEq, Repr

/-- The operation whose unit the word is presented to. -/
def OperandWord.operation : OperandWord → Operation
  | .rotl32 _ => .rotl32
  | .rotl64 _ => .rotl64
  | .updateHash _ => .updateHash
  | .combine _ => .combine
  | .derive _ => .derive

/-- The operand word as one number, bit 0 the least significant (R7, R39). -/
def OperandWord.toNat : OperandWord → Nat
  | .rotl32 w => BitVec.toNat w
  | .rotl64 w => BitVec.toNat w
  | .updateHash w => BitVec.toNat w
  | .combine w => BitVec.toNat w
  | .derive w => BitVec.toNat w

end Sys2Proof
end

