-- ==== Sys2Proof/WellFormed.lean ====
section
/-!
DEFINITION. What a well-formed operand word is.

An `Instr` and an `OperandWord` are well formed by their types: every operand field has exactly its width (R45 (b)), no
operand word is reserved, illegal or a hint (R47), and an amount of 32 (64) or more cannot be written (R57). The one
check left is on a raw NUMBER that is to be taken as an operand word of an operation: it must fit the word's width.
-/

namespace Sys2Proof

/-- The number `w` is an operand word of `op`: it has no bit above the word (R40 to R44, R47, R57). -/
def Operation.admits (op : Operation) (w : Nat) : Bool :=
  decide (w < 2 ^ op.width)

end Sys2Proof
end

