-- ==== Sys2Proof/Decode.lean ====
section
/-!
DEFINITION. Operand words and the evaluations they stand for, in both directions (R39 to R44, R53).

`decode` is total on operand words: no word is reserved (R47). `decodeWord` is total on raw numbers and rejects by name
the ones that are no operand word of the operation. `encode` is written from the same field tables. The layout is the
spec's convention (D11); the operation never comes from the word (R38).
-/

namespace Sys2Proof

/-- Why a raw number stands for no evaluation. -/
inductive DecodeError where
  /-- The number has a bit above the operand word of `op` (R57: no meaning is given to a wider amount). -/
  | wordTooWide (op : Operation)
deriving DecidableEq, Repr

/-- Format R32: k in 36:32, x in 31:0 (R40). -/
def decodeR32 (w : BitVec 37) : Instr :=
  .rotl32 (w.extractLsb' 32 5) (w.extractLsb' 0 32)

/-- Format R64: k in 69:64, x in 63:0 (R41). -/
def decodeR64 (w : BitVec 70) : Instr :=
  .rotl64 (w.extractLsb' 64 6) (w.extractLsb' 0 64)

/-- Format H: previous_hash in 63:32, value in 31:0 (R42). -/
def decodeH (w : BitVec 64) : Instr :=
  .updateHash (w.extractLsb' 32 32) (w.extractLsb' 0 32)

/-- Format SI64: selector in 127:64, index in 63:0 (R43). -/
def decodeSI64 (w : BitVec 128) : Instr :=
  .combine (w.extractLsb' 64 64) (w.extractLsb' 0 64)

/-- Format SI32, laid out exactly as SI64 (R44). -/
def decodeSI32 (w : BitVec 128) : Instr :=
  .derive (w.extractLsb' 64 64) (w.extractLsb' 0 64)

/-- The evaluation an operand word asks for; every word asks for one (R47). -/
def decode : OperandWord → Instr
  | .rotl32 w => decodeR32 w
  | .rotl64 w => decodeR64 w
  | .updateHash w => decodeH w
  | .combine w => decodeSI64 w
  | .derive w => decodeSI32 w

/-- The operand word of an evaluation: its operands concatenated, first field in the high bits (R39 to R44). -/
def encode : Instr → OperandWord
  | .rotl32 k x => .rotl32 (k ++ x)
  | .rotl64 k x => .rotl64 (k ++ x)
  | .updateHash previousHash value => .updateHash (previousHash ++ value)
  | .combine selector index => .combine (selector ++ index)
  | .derive selector index => .derive (selector ++ index)

/-- The low bits of a number, on the input lines of the unit of `op`. -/
def OperandWord.ofNat (op : Operation) (w : Nat) : OperandWord :=
  match op with
  | .rotl32 => .rotl32 (BitVec.ofNat 37 w)
  | .rotl64 => .rotl64 (BitVec.ofNat 70 w)
  | .updateHash => .updateHash (BitVec.ofNat 64 w)
  | .combine => .combine (BitVec.ofNat 128 w)
  | .derive => .derive (BitVec.ofNat 128 w)

/-- The evaluation a raw number asks of the operation `op`, or why it asks for none. -/
def decodeWord (op : Operation) (w : Nat) : Except DecodeError Instr :=
  if op.admits w then .ok (decode (OperandWord.ofNat op w)) else .error (.wordTooWide op)

/-- The operand word of an evaluation as one number. -/
def encodeWord (i : Instr) : Nat :=
  (encode i).toNat

/-- The operation a table word of `nbits` bits is read as. DESIGN CHOICE (log 6): the table has no opcode bits and
gives COMBINE and DERIVE the same 128 bits (R38, R53); a 128-bit word is read as DERIVE, the one operation the ports
reach. The widths are accepted as the table gives them and rounded up to whole bytes (log 7). -/
def operationOfLength : Nat → Option Operation
  | 37 => some .rotl32
  | 40 => some .rotl32
  | 64 => some .updateHash
  | 70 => some .rotl64
  | 72 => some .rotl64
  | 128 => some .derive
  | _ => none

/-- The evaluation read from a table word: `nbits` says how long it is and `w` is its bits, bit 0 the least
significant; the bits between the table's width and the whole byte must be 0 (log 7). -/
def decodeTableWord (nbits w : Nat) : Option Instr :=
  match operationOfLength nbits with
  | none => none
  | some op =>
    match decodeWord op w with
    | .ok i => some i
    | .error _ => none

end Sys2Proof
end

