-- ==== Sys2Proof/Machine/Constants.lean ====
section
/-!
DEFINITION. The hardwired constants of the datapath (R46, R61, R72). The literals are the document's, taken exactly as
written and unaudited (D15; log 9: UNVERIFIED).
-/

namespace Sys2Proof.Machine

/-- Line S1, xored into the previous hash (R61). -/
def mixC1 : Word32 := 0x8addb2d1#32
/-- Line S3, xored into the rotated value before the addition (R61). -/
def mixC2 : Word32 := 0x8c723b45#32
/-- Line S4, multiplier (R61). -/
def mixC3 : Word32 := 0xfd923173#32
/-- Line S5, multiplier (R61). -/
def mixC4 : Word32 := 0x89a6aa0b#32
/-- Line S6, multiplier (R61). -/
def mixC5 : Word32 := 0x1f844cb7#32
/-- Line S7, multiplier (R61). -/
def mixC6 : Word32 := 0xfd2c1e9d#32
/-- Line A2, multiplier of the inverted selector (R72). -/
def foldK1 : Word64 := 0x9E3779B97F4A7C55#64
/-- Line A10, final multiplier of the accumulator (R72). -/
def foldK2 : Word64 := 0x72A4EB92D796ED93#64
/-- Line F1, the previous_hash of the first round: wiring, not state (R25, R46). -/
def chainStart : Word32 := 0x00000000#32

end Sys2Proof.Machine
end

