-- ==== Sys2Proof/Machine/Operands.lean ====
section
/-!
DEFINITION. How the datapath assembles its inner operands (R45): the two data-dependent rotate amounts, the lanes of a
pointer, the three windows of the combined state, and the widening of a mixer result. No operand is sign-extended,
scaled or shifted on entry (R45 (b)).
-/

namespace Sys2Proof.Machine

/-- The rotate amount of the mixer: the low 5 bits of the hash after step S1 (R45 (c), R63). -/
def mixAmount (t1 : Word32) : Amount32 :=
  t1.extractLsb' 0 5

/-- The low lane of a pointer, bits 31 to 0 (R45 (e), R74). -/
def laneLo (p : Word64) : Word32 :=
  p.extractLsb' 0 32

/-- The high lane of a pointer, bits 63 to 32 (R45 (e), R74). -/
def laneHi (p : Word64) : Word32 :=
  p.extractLsb' 32 32

/-- What a mixer round receives of the accumulator: its low 32 bits (R75). -/
def accLow (h : Word64) : Word32 :=
  h.setWidth 32

/-- A mixer result entering the 64-bit accumulator: zero-extended (R76, D5). -/
def widen (m : Word32) : Word64 :=
  m.setWidth 64

/-- The low window, bits 31 to 0 of the state (R85 X2). -/
def windowLo (state : Word64) : Word32 :=
  state.setWidth 32

/-- The middle window: the state shifted right by 29, truncated to 32 bits (R85 X2, R86, D8). -/
def windowMid (state : Word64) : Word32 :=
  (state >>> 29).setWidth 32

/-- The high window: the state shifted right by 58, truncated to 32 bits; the shift is logical (R85 X2, R86, D9). -/
def windowHi (state : Word64) : Word32 :=
  (state >>> 58).setWidth 32

/-- The rotate amount of Extract: the three windows xored, and then masked to 6 bits (R45 (d), R85 X3). -/
def extractAmount (lo mid hi : Word32) : Amount64 :=
  (lo ^^^ mid ^^^ hi).setWidth 6

end Sys2Proof.Machine
end

