-- ==== Sys2Proof/Machine/Rotate.lean ====
section
/-!
DEFINITION. BitRotate: the two left-rotates, as functions (R54 to R59). Their evaluation as operations stands in
Machine/BitRotate.lean.
-/

namespace Sys2Proof.Machine

/-- ROTL32 (R54); a rotate by 0 returns the operand unchanged (R56, D4). -/
def rotl32 (x : Word32) (k : Amount32) : Word32 :=
  if k = 0 then x else (x <<< k.toNat) ||| (x >>> (32 - k.toNat))

/-- ROTL64 (R55); a rotate by 0 returns the operand unchanged (R56, D4). -/
def rotl64 (x : Word64) (k : Amount64) : Word64 :=
  if k = 0 then x else (x <<< k.toNat) ||| (x >>> (64 - k.toNat))

end Sys2Proof.Machine
end

