-- ==== Sys2Proof/Machine/Mixer.lean ====
section
/-!
DEFINITION. HashMixer: UPDATE_HASH as a function, with the wires the spec names (R24, R60 to R69). Its evaluation as an
operation stands in Machine/HashMixer.lean.
-/

namespace Sys2Proof.Machine

/-- The wires of one UPDATE_HASH (R24, R60). -/
structure MixerWires where
  t1 : Word32
  r : Amount32
  rv : Word32
  t2 : Word32
  t3 : Word32
  t4 : Word32
  t5 : Word32
  t6 : Word32
  t7 : Word32
  t8 : Word32
  t9 : Word32
  t10 : Word32
deriving DecidableEq, Repr

/-- Lines S1 to S7 of R60. Every right shift is logical (R62), every sum and product wraps (R64), and in S3 the xor is
formed before the addition (R65). -/
def mixerWires (previousHash value : Word32) : MixerWires :=
  let t1 := previousHash ^^^ mixC1
  let r := mixAmount t1
  let rv := rotl32 value r
  let t2 := t1 + (mixC2 ^^^ rv)
  let t3 := t2 * mixC3
  let t4 := t3 ^^^ (t3 >>> 15)
  let t5 := t4 * mixC4
  let t6 := t5 ^^^ (t5 >>> 7)
  let t7 := t6 + (t6 >>> 29)
  let t8 := t7 * mixC5
  let t9 := t8 ^^^ (t8 >>> 16)
  let t10 := t9 * mixC6
  { t1, r, rv, t2, t3, t4, t5, t6, t7, t8, t9, t10 }

/-- UPDATE_HASH: line S8 returns the wire t10 unchanged (R60, R69). -/
def updateHash (previousHash value : Word32) : Word32 :=
  (mixerWires previousHash value).t10

end Sys2Proof.Machine
end

