-- ==== Sys2Proof/Machine/Fold.lean ====
section
/-!
DEFINITION. CascadeInterleave: COMBINE as a function, with the wires the spec names (R24, R71 to R79). Its evaluation as
an operation stands in Machine/CascadeInterleave.lean.
-/

namespace Sys2Proof.Machine

/-- The anchors, offsets and pointers of lines A1 to A7 (R24, R71). -/
structure PointerWires where
  pa : Word64
  aa : Word64
  am : Word64
  po : Word64
  ao : Word64
  pp : Word64
  ap : Word64
deriving DecidableEq, Repr

/-- Lines A1 to A7 of R71: plain 64-bit modular operations on the raw patterns (R73). -/
def pointerWires (selector index : Word64) : PointerWires :=
  let pa := selector
  let aa := ~~~selector * foldK1
  let am := pa &&& aa
  let po := index
  let ao := ~~~index ^^^ am
  let pp := pa + po
  let ap := aa - ao
  { pa, aa, am, po, ao, pp, ap }

/-- The mixer results and accumulators of lines F1 to F4 (R24, R71). -/
structure FoldWires where
  m1 : Word32
  h1 : Word64
  m2 : Word32
  h2 : Word64
  m3 : Word32
  h3 : Word64
  m4 : Word32
  h4 : Word64
deriving DecidableEq, Repr

/-- Lines F1 to F4 of R71, on the lanes in the order the fold consumes them (R75). Every mixer result is zero-extended
(R76), every shifted term is the accumulator as it was before the line (R77), and the shift by 48 is logical (R78). -/
def foldWires (aLo aHi pHi pLo : Word32) : FoldWires :=
  let m1 := updateHash chainStart aLo
  let h1 := widen m1
  let m2 := updateHash (accLow h1) aHi
  let h2 := widen m2 ^^^ (h1 <<< 16)
  let m3 := updateHash (accLow h2) pHi
  let h3 := widen m3 ^^^ (h2 <<< 16)
  let m4 := updateHash (accLow h3) pLo
  let h4 := widen m4 ^^^ (h3 <<< 16) ^^^ (h3 >>> 48)
  { m1, h1, m2, h2, m3, h3, m4, h4 }

/-- The wires of one COMBINE (R24, R71). -/
structure CombineWires where
  pointers : PointerWires
  pLo : Word32
  pHi : Word32
  aLo : Word32
  aHi : Word32
  fold : FoldWires
  state : Word64
deriving DecidableEq, Repr

/-- The whole of R71: pointers, the lane split A8 (R74), the fold, and the final multiplication A10 (R79). -/
def combineWires (selector index : Word64) : CombineWires :=
  let pointers := pointerWires selector index
  let pLo := laneLo pointers.pp
  let pHi := laneHi pointers.pp
  let aLo := laneLo pointers.ap
  let aHi := laneHi pointers.ap
  let fold := foldWires aLo aHi pHi pLo
  let state := fold.h4 * foldK2
  { pointers, pLo, pHi, aLo, aHi, fold, state }

/-- COMBINE (R71). -/
def combine (selector index : Word64) : Word64 :=
  (combineWires selector index).state

end Sys2Proof.Machine
end

