-- ==== Sys2Proof/Machine/Window.lean ====
section
/-!
DEFINITION. Extract: DERIVE as a function, with the wires the spec names (R24, R85 to R90). Its evaluation as an
operation stands in Machine/Extract.lean.
-/

namespace Sys2Proof.Machine

/-- The wires of lines X2 to X5, from the combined state on (R24, R85). -/
structure ExtractWires where
  wLo : Word32
  wMid : Word32
  wHi : Word32
  rotAmount : Amount64
  rotated : Word64
  value : Word32
deriving DecidableEq, Repr

/-- Lines X2 to X5 of R85. -/
def extractWires (state : Word64) : ExtractWires :=
  let wLo := windowLo state
  let wMid := windowMid state
  let wHi := windowHi state
  let rotAmount := extractAmount wLo wMid wHi
  let rotated := rotl64 state rotAmount
  let value := rotated.setWidth 32
  { wLo, wMid, wHi, rotAmount, rotated, value }

/-- DERIVE: line X1 and then X2 to X5 (R85). -/
def derive (selector index : Word64) : Word32 :=
  (extractWires (combine selector index)).value

/-- A 32-bit result as the host's signed view reads it, in two's complement; no bit changes (R8, R69, R90). -/
def asSigned32 (v : Word32) : Int :=
  BitVec.toInt v

end Sys2Proof.Machine
end

