-- ==== Sys2Proof/Machine/State.lean ====
section
/-!
DEFINITION. The state of the model: the interface signals of the block and of the inner units' benches, and the request
the host presents.

The spec gives the machine no architectural state (R15 to R21): no register, program counter, flag, mode, memory,
exception register or reset value. A state of the MODEL is what stands on the ports (R22, R40 to R44) after the last
evaluation of each unit, and the operand word the host drives for the next evaluation (R107, R108; log 1, 2, 3).
-/

namespace Sys2Proof.Machine

/-- The ports of ROTL32 (R40): operands and result of its last evaluation. -/
structure Rotl32Ports where
  k : Amount32
  x : Word32
  result : Word32
deriving DecidableEq, Repr

/-- The ports of ROTL64 (R41). -/
structure Rotl64Ports where
  k : Amount64
  x : Word64
  result : Word64
deriving DecidableEq, Repr

/-- The ports of UPDATE_HASH (R42). -/
structure UpdateHashPorts where
  previousHash : Word32
  value : Word32
  result : Word32
deriving DecidableEq, Repr

/-- The ports of COMBINE (R43); the result is the combined state. -/
structure CombinePorts where
  selector : Word64
  index : Word64
  state : Word64
deriving DecidableEq, Repr

/-- The ports of the block itself: selector[63:0], index[63:0], value[31:0] (R22, R44). -/
structure DerivePorts where
  selector : Word64
  index : Word64
  value : Word32
deriving DecidableEq, Repr

/-- The state of the model (log 1, 2, 3). -/
structure State where
  /-- The unit whose input lines the host drives, and the operand word on them (R108; log 3). -/
  request : OperandWord
  /-- The bench of ROTL32 (R38, R40; log 2). -/
  rotl32 : Rotl32Ports
  /-- The bench of ROTL64 (R38, R41; log 2). -/
  rotl64 : Rotl64Ports
  /-- The bench of UPDATE_HASH (R38, R42; log 2). -/
  updateHash : UpdateHashPorts
  /-- The bench of COMBINE (R38, R43; log 2). -/
  combine : CombinePorts
  /-- The block's own ports (R22, R44). -/
  derive : DerivePorts
deriving DecidableEq, Repr

/-- Faults. The block raises nothing, for any operand (R92, R93, R99), so there is no constructor. -/
inductive Fault where
deriving DecidableEq, Repr

/-- Refusals. Every operation has its meaning and answers for every operand (R47, R99). -/
inductive Refusal where
  /-- The name the interface asks for; raised by no arm of exec and by no meaning. Safe: a refusal proves nothing. -/
  | notModelled (mnemonic : String)
deriving DecidableEq, Repr

/-- The model before the host has presented anything. There is no reset (R27, R102): "From the first moment its inputs
carry defined bits" the output follows them. DESIGN CHOICE (log 4): every input line carries 0, and the host's
request is DERIVE with the operand word 0; the outputs are what the units' rules give. -/
def State.reset : State where
  request := .derive 0
  rotl32 := { k := 0, x := 0, result := Machine.rotl32 0 0 }
  rotl64 := { k := 0, x := 0, result := Machine.rotl64 0 0 }
  updateHash := { previousHash := 0, value := 0, result := Machine.updateHash 0 0 }
  combine := { selector := 0, index := 0, state := Machine.combine 0 0 }
  derive := { selector := 0, index := 0, value := Machine.derive 0 0 }

end Sys2Proof.Machine
end

