-- ==== Sys2Proof/Machine/Ops.lean ====
section
/-!
DEFINITION. The named operations on the model's state: presenting a request, reading the request, writing the ports of
one unit, and reading a unit's result word (R22, R31, R39, R108).

Each write touches the ports of one unit and nothing else: evaluations share nothing (R33, R100). There is no memory
operation and no exception entry or return, because the block has neither (R28, R92, R96).
-/

namespace Sys2Proof.Machine

/-- The host drives the operand word of `i` on its unit's input lines (R108; log 3). All operand bits change together
(R31). -/
def State.present (i : Instr) (s : State) : State :=
  { s with request := encode i }

/-- The host drives the operand word a table word stands for; a number that stands for none cannot be driven, since
the unit's lines have no place for it, and leaves the state as it is (R57; log 7). -/
def State.presentTableWord (s : State) (nbits w : Nat) : State :=
  match decodeTableWord nbits w with
  | some i => s.present i
  | none => s

/-- The evaluation the host asks for (R39, R107). -/
def State.requested (s : State) : Instr :=
  decode s.request

/-- Write the ports of ROTL32. -/
def State.setRotl32 (p : Rotl32Ports) (s : State) : State :=
  { s with rotl32 := p }

/-- Write the ports of ROTL64. -/
def State.setRotl64 (p : Rotl64Ports) (s : State) : State :=
  { s with rotl64 := p }

/-- Write the ports of UPDATE_HASH. -/
def State.setUpdateHash (p : UpdateHashPorts) (s : State) : State :=
  { s with updateHash := p }

/-- Write the ports of COMBINE. -/
def State.setCombine (p : CombinePorts) (s : State) : State :=
  { s with combine := p }

/-- Write the block's ports. -/
def State.setDerive (p : DerivePorts) (s : State) : State :=
  { s with derive := p }

/-- The result word on the output of the unit of `op`, as a number: "The result word is the result alone" (R39). -/
def State.response (s : State) (op : Operation) : Nat :=
  match op with
  | .rotl32 => BitVec.toNat s.rotl32.result
  | .rotl64 => BitVec.toNat s.rotl64.result
  | .updateHash => BitVec.toNat s.updateHash.result
  | .combine => BitVec.toNat s.combine.state
  | .derive => BitVec.toNat s.derive.value

end Sys2Proof.Machine
end

