-- ==== Sys2Proof/Machine/BitRotate.lean ====
section
/-!
DEFINITION. The evaluations of BitRotate: ROTL32 and ROTL64 (R54 to R57). No flag is written and nothing is raised.
-/

namespace Sys2Proof.Machine

/-- ROTL32 (R54, R56): the operands stand on the unit's inputs and the rotated word on its output. -/
def execRotl32 (k : Amount32) (x : Word32) (s : State) : Host.Outcome State Fault Refusal :=
  .next (s.setRotl32 { k := k, x := x, result := rotl32 x k })

/-- ROTL64 (R55, R56). -/
def execRotl64 (k : Amount64) (x : Word64) (s : State) : Host.Outcome State Fault Refusal :=
  .next (s.setRotl64 { k := k, x := x, result := rotl64 x k })

end Sys2Proof.Machine
end

