-- ==== Sys2Proof/Machine/CascadeInterleave.lean ====
section
/-!
DEFINITION. The evaluation of CascadeInterleave: COMBINE (R71 to R84). Total, no flag, nothing raised (R83).
-/

namespace Sys2Proof.Machine

/-- COMBINE (R71). -/
def execCombine (selector index : Word64) (s : State) : Host.Outcome State Fault Refusal :=
  .next (s.setCombine { selector := selector, index := index, state := combine selector index })

end Sys2Proof.Machine
end

