-- ==== Sys2Proof/Machine/Extract.lean ====
section
/-!
DEFINITION. The evaluation of Extract: DERIVE, the block's only public operation (R85 to R91). Total over all pairs, no
flag, nothing raised, no observable side effect.
-/

namespace Sys2Proof.Machine

/-- DERIVE (R85): selector and index stand on the block's ports and value follows them (R22, R103). -/
def execDerive (selector index : Word64) (s : State) : Host.Outcome State Fault Refusal :=
  .next (s.setDerive { selector := selector, index := index, value := derive selector index })

end Sys2Proof.Machine
end

