-- ==== Sys2Proof/Machine/HashMixer.lean ====
section
/-!
DEFINITION. The evaluation of HashMixer: UPDATE_HASH (R60 to R69). Total, no flag, nothing raised (R68).
-/

namespace Sys2Proof.Machine

/-- UPDATE_HASH (R60): nothing is kept for the next evaluation; a chain is formed by the caller (R66). -/
def execUpdateHash (previousHash value : Word32) (s : State) : Host.Outcome State Fault Refusal :=
  .next (s.setUpdateHash
    { previousHash := previousHash, value := value, result := updateHash previousHash value })

end Sys2Proof.Machine
end

