-- ==== Sys2Proof/Machine/Dispatch.lean ====
section
/-!
DEFINITION. One arm per operation (R38).
-/

namespace Sys2Proof.Machine

/-- The meaning of each operation, by its constructor (R38). -/
def exec (i : Instr) (s : State) : Host.Outcome State Fault Refusal :=
  match i with
  | .rotl32 k x => Sys2Proof.Machine.execRotl32 k x s
  | .rotl64 k x => Sys2Proof.Machine.execRotl64 k x s
  | .updateHash previousHash value => Sys2Proof.Machine.execUpdateHash previousHash value s
  | .combine selector index => Sys2Proof.Machine.execCombine selector index s
  | .derive selector index => Sys2Proof.Machine.execDerive selector index s

end Sys2Proof.Machine
end

