-- ==== Sys2Proof/Machine/Step.lean ====
section
/-!
DEFINITION. One step: one evaluation, of the request the host presents (R107). There is no program counter to advance
and nothing is added around exec (R17).
-/

namespace Sys2Proof.Machine

/-- One evaluation (R107). The request stays on the input lines, so a further step evaluates it again (R31, R108). -/
def step (s : State) : Host.Outcome State Fault Refusal :=
  exec s.requested s

/-- The host presents the operand word of a row of spec/opcode_table.json (log 5, 6, 7). -/
def State.withFetchWord (s : State) (nbits w : Nat) : State :=
  s.presentTableWord nbits w

end Sys2Proof.Machine
end

