-- ==== Sys2Proof/Config.lean ====
section
/-!
DEFINITION. What an implementation of the CHI32 core fixes and the spec leaves OPEN (R6).

The core itself "has no tunable parameter" (R6): the constants and shift amounts are hardwired and stand in
Machine/Constants.lean. The constants below have no body: nothing in Lean can compute or prove a value of one, and no
operation of the core depends on one (R103, R84). Only the implementations modelled beside the reference block read
them (Machine/Pipeline.lean, Machine/Sequencer.lean).
-/

namespace Sys2Proof

/-- LATENCY: clock cycles from request to response, a natural number (R6, R103, D2; log 11). -/
opaque Config.latency : Nat

/-- The selector and index held by pipeline register `n` at power-up: unspecified (R27, U5; log 11). -/
opaque Config.powerUpRequest : Nat → Word64 × Word64

/-- Whether COMBINE uses one mixer four times (true) or four chained mixers (false): OPEN (R6, R84, D10; log 12). -/
opaque Config.mixerIsIterated : Bool

end Sys2Proof
end

