-- ==== Sys2Proof/Machine/Pipeline.lean ====
section
/-!
DEFINITION. An implementation that registers its requests, LATENCY deep (R103, U5): what of it concerns values. Each
register holds one request in flight; at every clock one request enters and the oldest leaves with its response. How a
response is marked valid is outside the spec (U5) and outside this file (log 11); a host that knows LATENCY counts.

R103 leaves two points open that this file settles. Obligation (b) lets responses leave in request order or carry an
identification: DESIGN CHOICE (log 16), they leave in order and carry none. The spec gives no throughput: DESIGN CHOICE
(log 17), exactly one request enters at every clock and no clock is idle.
-/

namespace Sys2Proof.Machine

/-- A request of the block: the pair, sampled together (R31, R107). -/
structure PairRequest where
  selector : Word64
  index : Word64
deriving DecidableEq, Repr

/-- The response to a request (R107). -/
def PairRequest.answer (q : PairRequest) : Word32 :=
  derive q.selector q.index

/-- The requests in flight, oldest first (R21, R103; the order is log 16's). -/
structure Pipeline where
  inFlight : List PairRequest
deriving DecidableEq, Repr

/-- The pipeline at power-up: LATENCY registers of unspecified content (R27, U5). -/
def Pipeline.powerUp : Pipeline :=
  { inFlight := (List.range Config.latency).map fun n =>
      { selector := (Config.powerUpRequest n).1, index := (Config.powerUpRequest n).2 } }

/-- One clock: the request enters behind the others, and the oldest leaves with its response; with no register the
request answers at once, the combinational block (R103). DESIGN CHOICE: responses leave in the order the requests entered
and carry no identification (R103 (b) allows either; log 16); and every clock takes exactly one request (the spec gives no
throughput; log 17), so a host that still waits for a response drives some pair all the same. -/
def Pipeline.clock (p : Pipeline) (q : PairRequest) : Word32 × Pipeline :=
  match p.inFlight with
  | [] => (q.answer, p)
  | oldest :: rest => (oldest.answer, { inFlight := rest ++ [q] })

/-- A sequence of clocks, one request at each (log 17): the words on the output, first first. -/
def Pipeline.outputs (p : Pipeline) : List PairRequest → List Word32
  | [] => []
  | q :: qs => (p.clock q).1 :: Pipeline.outputs (p.clock q).2 qs

end Sys2Proof.Machine
end

