-- ==== Sys2Proof/Machine/Sequencer.lean ====
section
/-!
DEFINITION. COMBINE with ONE mixer circuit used four times (R84): the accumulator in a register, and a round counter.
The number of mixers is OPEN and unobservable (R6, D10; log 12); the reference form is the chain of Machine/Fold.lean.
-/

namespace Sys2Proof.Machine

/-- The implementation state of the iterated form (R84): "a register and a counter". -/
structure Sequencer where
  round : Nat
  acc : Word64
deriving DecidableEq, Repr

/-- Before the first round: the accumulator is the constant 0 that starts a chain (R25). -/
def Sequencer.start : Sequencer :=
  { round := 0, acc := widen chainStart }

/-- The lane a round consumes: a_lo, a_hi, p_hi, p_lo (R75). -/
def Sequencer.lane (round : Nat) (pp ap : Word64) : Word32 :=
  match round with
  | 0 => laneLo ap
  | 1 => laneHi ap
  | 2 => laneHi pp
  | _ => laneLo pp

/-- One round of the one mixer: the same three terms every round, but the term shifted right by 48 only in the last
(R71 F1 to F4). -/
def Sequencer.tick (pp ap : Word64) (q : Sequencer) : Sequencer :=
  let mixed := widen (updateHash (accLow q.acc) (Sequencer.lane q.round pp ap))
  let shifted := mixed ^^^ (q.acc <<< 16)
  { round := q.round + 1
    acc := if q.round = 3 then shifted ^^^ (q.acc >>> 48) else shifted }

/-- Rounds one after the other. -/
def Sequencer.ticks (pp ap : Word64) : Nat → Sequencer → Sequencer
  | 0, q => q
  | n + 1, q => Sequencer.ticks pp ap n (q.tick pp ap)

/-- COMBINE by four rounds of one mixer (R84). -/
def combineIterated (selector index : Word64) : Word64 :=
  let w := pointerWires selector index
  (Sequencer.ticks w.pp w.ap 4 Sequencer.start).acc * foldK2

/-- COMBINE as an implementation with the given form of mixer computes it (R84). -/
def combineWith (iterated : Bool) (selector index : Word64) : Word64 :=
  if iterated then combineIterated selector index else combine selector index

/-- COMBINE as THIS implementation computes it (R84; Config.mixerIsIterated, log 12). -/
def combineImplemented (selector index : Word64) : Word64 :=
  combineWith Config.mixerIsIterated selector index

end Sys2Proof.Machine
end

