-- ==== Sys2Proof/Machine/StreamIterator.lean ====
section
/-!
DEFINITION. The host's iterator and its three strategies (R49 to R52): host software, outside the hardware (R4), kept
because testable properties of the core are stated through it. The iterator's state is the host's own, "an explicit small
state struct", and the block never sees it except as the operands of one request (R49).
-/

namespace Sys2Proof.Machine

/-- The three iteration strategies (R49). -/
inductive Strategy where
  | sequential
  | swapped
  | feedback
deriving DecidableEq, Repr

/-- The harness's strategy codes (R49); an unknown code is an error of the host's software (R98). -/
def Strategy.ofCode : Nat → Option Strategy
  | 0 => some .sequential
  | 1 => some .swapped
  | 2 => some .feedback
  | _ => none

/-- The host's iterator (R49). -/
structure StreamIterator where
  strategy : Strategy
  curSelector : Word64
  curIndex : Word64
deriving DecidableEq, Repr

/-- The iterator before the first NEXT (R50, R51, R52; D19 for the feedback strategy). -/
def StreamIterator.start (strategy : Strategy) (seed phase : Word64) : StreamIterator :=
  match strategy with
  | .sequential => { strategy := strategy, curSelector := seed, curIndex := phase }
  | .swapped => { strategy := strategy, curSelector := phase, curIndex := seed }
  | .feedback => { strategy := strategy, curSelector := seed, curIndex := phase }

/-- The host's own advance after an output (R50, R51, R52); the increment and decrement wrap (D20), and both shifts of
the feedback strategy act on unsigned values. -/
def StreamIterator.advance (it : StreamIterator) (out : Word32) : StreamIterator :=
  match it.strategy with
  | .sequential => { it with curIndex := it.curIndex + 1 }
  | .swapped => { it with curSelector := it.curSelector - 1 }
  | .feedback =>
    { it with
      curSelector := (it.curSelector <<< 32) ||| (it.curIndex >>> 32)
      curIndex := (it.curIndex <<< 32) ||| out.setWidth 64 }

/-- NEXT (R49): one evaluate interaction with the block, then the host's advance. -/
def StreamIterator.next (it : StreamIterator) (s : State) :
    Host.Outcome (Word32 × StreamIterator × State) Fault Refusal :=
  match step (s.present (.derive it.curSelector it.curIndex)) with
  | .next t => .next (t.derive.value, it.advance t.derive.value, t)
  | .fault f => .fault f
  | .refused r => .refused r

/-- `length` times NEXT: the list of outputs, first output first, and where the host and the block stand after them
(R50, R51, R52, R107). -/
def StreamIterator.run (length : Nat) (it : StreamIterator) (s : State) :
    Host.Outcome (List Word32 × StreamIterator × State) Fault Refusal :=
  match length with
  | 0 => .next ([], it, s)
  | n + 1 =>
    match it.next s with
    | .next (out, it', s') =>
      match StreamIterator.run n it' s' with
      | .next (outs, it'', s'') => .next (out :: outs, it'', s'')
      | .fault f => .fault f
      | .refused r => .refused r
    | .fault f => .fault f
    | .refused r => .refused r

end Sys2Proof.Machine
end

