-- ==== Sys2Proof/Safety.lean ====
section
/-!
DEFINITION. The terms the claims use: when a state is settled, and the spec's functions once more over unbounded
numbers with explicit reduction.
-/

namespace Sys2Proof.Machine

/-- ROTL32's output is the function of its inputs. -/
abbrev Rotl32Ports.settled (p : Rotl32Ports) : Prop := p.result = rotl32 p.x p.k

/-- ROTL64's output is the function of its inputs. -/
abbrev Rotl64Ports.settled (p : Rotl64Ports) : Prop := p.result = rotl64 p.x p.k

/-- UPDATE_HASH's output is the function of its inputs. -/
abbrev UpdateHashPorts.settled (p : UpdateHashPorts) : Prop := p.result = updateHash p.previousHash p.value

/-- COMBINE's output is the function of its inputs. -/
abbrev CombinePorts.settled (p : CombinePorts) : Prop := p.state = combine p.selector p.index

/-- The block's output is "at every instant the function DERIVE of the present selector and index" (R103). -/
abbrev DerivePorts.settled (p : DerivePorts) : Prop := p.value = derive p.selector p.index

/-- Every output on the ports is what its unit's rule gives for the inputs beside it (R22, R103). -/
abbrev Settled (s : State) : Prop :=
  s.rotl32.settled ∧ s.rotl64.settled ∧ s.updateHash.settled ∧ s.combine.settled ∧ s.derive.settled

end Sys2Proof.Machine

/-! The functions of R54, R60, R71 and R85 over natural numbers: unbounded, with every wrap written as an explicit
reduction modulo 2^32 or 2^64 (R9, R10, R106), after the arithmetic laws of R10. A claim compares the model's bit
vectors with these. -/

namespace Sys2Proof.Reference

/-- shl_w and lshr_w of R10 joined as R54 and R55 join them, at width w; for k = 0 the right shift is by w and gives 0. -/
def rotl (w x k : Nat) : Nat := (x * 2 ^ k) % 2 ^ w + x / 2 ^ (w - k)

/-- R60 in unbounded arithmetic. -/
def updateHash (previousHash value : Nat) : Nat :=
  let t1 := previousHash ^^^ 0x8addb2d1
  let rv := rotl 32 value (t1 % 32)
  let t3 := (t1 + (0x8c723b45 ^^^ rv)) * 0xfd923173 % 2 ^ 32
  let t5 := (t3 ^^^ (t3 / 2 ^ 15)) * 0x89a6aa0b % 2 ^ 32
  let t6 := t5 ^^^ (t5 / 2 ^ 7)
  let t8 := (t6 + t6 / 2 ^ 29) * 0x1f844cb7 % 2 ^ 32
  (t8 ^^^ (t8 / 2 ^ 16)) * 0xfd2c1e9d % 2 ^ 32

/-- R71 in unbounded arithmetic; not_64 and sub_64 by their laws in R10 and R73. -/
def combine (selector index : Nat) : Nat :=
  let aa := (2 ^ 64 - 1 - selector) * 0x9E3779B97F4A7C55 % 2 ^ 64
  let ao := (2 ^ 64 - 1 - index) ^^^ (selector &&& aa)
  let pp := (selector + index) % 2 ^ 64
  let ap := (aa + (2 ^ 64 - ao)) % 2 ^ 64
  let h1 := updateHash 0 (ap % 2 ^ 32)
  let h2 := updateHash (h1 % 2 ^ 32) (ap / 2 ^ 32) ^^^ (h1 * 2 ^ 16 % 2 ^ 64)
  let h3 := updateHash (h2 % 2 ^ 32) (pp / 2 ^ 32) ^^^ (h2 * 2 ^ 16 % 2 ^ 64)
  let h4 := updateHash (h3 % 2 ^ 32) (pp % 2 ^ 32) ^^^ (h3 * 2 ^ 16 % 2 ^ 64) ^^^ (h3 / 2 ^ 48)
  h4 * 0x72A4EB92D796ED93 % 2 ^ 64

/-- The rotate amount of R85 X2 and X3 from a state, in unbounded arithmetic. -/
def rotAmount (state : Nat) : Nat :=
  (state % 2 ^ 32 ^^^ (state / 2 ^ 29 % 2 ^ 32) ^^^ (state / 2 ^ 58 % 2 ^ 32)) % 64

/-- R85 in unbounded arithmetic. -/
def derive (selector index : Nat) : Nat :=
  let state := combine selector index
  rotl 64 state (rotAmount state) % 2 ^ 32

/-- How many bits of a word are one (R58 (c)). -/
def oneBits {w : Nat} (x : BitVec w) : Nat :=
  (List.range w).countP fun j => x.getLsbD j

/-- The pairs of the feedback strategy by the recurrence of R52. -/
def feedbackPair (seed phase : Word64) : Nat → Word64 × Word64
  | 0 => (seed, phase)
  | n + 1 =>
    let p := feedbackPair seed phase n
    ((p.1 <<< 32) ||| (p.2 >>> 32), (p.2 <<< 32) ||| (Machine.derive p.1 p.2).setWidth 64)

end Sys2Proof.Reference
end

