-- ==== Sys2Proof/Certificates/Slice0/Obligations.lean ====
section
/-!
DEFINITION. The statements for the provers. Each docstring names the rule of spec/ it formalises; "log <n>" is a row of
notes/assumptions/ for a choice that is the model's and not the spec's.
-/

open Sys2Proof Sys2Proof.Machine

/-! ## The machine as a whole -/

/-- One step is one evaluation (R107): whenever the number on the input lines of a unit decodes to an evaluation, the
step at that state is `exec` of it, with nothing around it (there is no program counter, R17). -/
def Obligations.StepRunsTheRequestedEvaluation : Prop :=
  (∀ (s : State) (op : Operation) (w : Nat) (i : Instr), decodeWord op w = .ok i →
    step { s with request := OperandWord.ofNat op w } = exec i { s with request := OperandWord.ofNat op w })
  ∧ ∀ s : State, step s = exec (decode s.request) s

/-- Presenting a row's table word makes the next step run what the decoder reads from it (log 5, 6, 7). -/
def Obligations.TableWordIsPresentedAndRun : Prop :=
  (∀ (s : State) (nbits w : Nat) (i : Instr), decodeTableWord nbits w = some i →
    s.withFetchWord nbits w = { s with request := encode i }
      ∧ step (s.withFetchWord nbits w) = exec i (s.withFetchWord nbits w))
  ∧ ∀ (s : State) (nbits w : Nat), decodeTableWord nbits w = none → s.withFetchWord nbits w = s

/-- Operand words written out from R40 to R44 stand for the evaluations the vectors RV9, RV18, HV7, CV12 and DV19 say. -/
def Obligations.WrittenOperandWordsDecode : Prop :=
  decodeWord .rotl32 0b11111_11011110101011011011111011101111 = .ok (.rotl32 31 0xdeadbeef)
  ∧ decodeWord .rotl64 0x040123456789abcdef = .ok (.rotl64 4 0x0123456789abcdef)
  ∧ decodeWord .updateHash 0x8addb2d1deadbeef = .ok (.updateHash 0x8addb2d1 0xdeadbeef)
  ∧ decodeWord .combine 0x80000000000000007fffffffffffffff
      = .ok (.combine 0x8000000000000000 0x7fffffffffffffff)
  ∧ decodeWord .derive 0x00000000000000030000000000000005 = .ok (.derive 3 5)

/-- Decoding an encoded evaluation gives it back, for all five operations and every operand (R39 to R44). -/
def Obligations.DecodeEncodeAgree : Prop :=
  ∀ i : Instr, decodeWord i.operation (encodeWord i) = .ok i ∧ decode (encode i) = i

/-- Whatever number decodes is the encoding of what it decodes to: no bit of an operand word is ignored (R39 to R44). -/
def Obligations.EncodeDecodeAgree : Prop :=
  (∀ (op : Operation) (w : Nat) (i : Instr), decodeWord op w = .ok i → i.operation = op ∧ encodeWord i = w)
  ∧ ∀ w : OperandWord, encode (decode w) = w

/-- R47 (the spec's decision D4): every operand word of each operation has exactly one defined result, whatever state it
is evaluated in, and a rotate amount of 0 gives the identity. The widths are the formats of the spec's decision D11. That
a number with a bit above the word is rejected as too wide is the model's choice (log 7, DESIGN CHOICE); for the rotates
R57 says that such an amount has no meaning. -/
def Obligations.EveryOperandWordHasOneResult : Prop :=
  (∀ (op : Operation) (w : Nat), w < 2 ^ op.width →
    ∃! r : Nat, ∀ s : State, ∃ (i : Instr) (t : State),
      decodeWord op w = .ok i ∧ i.operation = op ∧ exec i s = .next t ∧ t.response op = r)
  ∧ (∀ (op : Operation) (w : Nat), 2 ^ op.width ≤ w → decodeWord op w = .error (.wordTooWide op))
  ∧ (Operation.rotl32.width = 37 ∧ Operation.rotl64.width = 70 ∧ Operation.updateHash.width = 64
      ∧ Operation.combine.width = 128 ∧ Operation.derive.width = 128)
  ∧ (∀ (x : Word32) (s : State), ∃ t, exec (.rotl32 0 x) s = .next t ∧ t.rotl32.result = x)
  ∧ ∀ (x : Word64) (s : State), ∃ t, exec (.rotl64 0 x) s = .next t ∧ t.rotl64.result = x

/-- R27 (the spec's decision D12): before any evaluation the outputs already are what the units' rules give for the inputs beside them. That the
inputs are 0 there is the model's choice (log 4). -/
def Obligations.ResetIsSettled : Prop :=
  Settled State.reset ∧ State.reset.derive.value = 0x52dd0945#32

/-- R103, R22: once every output is the function of the inputs beside it, every step leaves it so. The inputs are held
on the ports in the model's state (log 1, 2). -/
def Obligations.StepKeepsEveryOutputSettled : Prop :=
  ∀ s t : State, Settled s → step s = .next t → Settled t

/-- Whatever stood on the ports, an evaluation settles its own unit; it unsettles no other, and neither does the host's
presenting of a request (R22, R103, R94). -/
def Obligations.EvaluationSettlesItsUnit : Prop :=
  (∀ (k : Amount32) (x : Word32) (s t : State), exec (.rotl32 k x) s = .next t → t.rotl32.settled)
  ∧ (∀ (k : Amount64) (x : Word64) (s t : State), exec (.rotl64 k x) s = .next t → t.rotl64.settled)
  ∧ (∀ (p v : Word32) (s t : State), exec (.updateHash p v) s = .next t → t.updateHash.settled)
  ∧ (∀ (a b : Word64) (s t : State), exec (.combine a b) s = .next t → t.combine.settled)
  ∧ (∀ (a b : Word64) (s t : State), exec (.derive a b) s = .next t → t.derive.settled)
  ∧ (∀ (i : Instr) (s t : State), Settled s → exec i s = .next t → Settled t)
  ∧ ∀ (i : Instr) (s : State), Settled s → Settled (s.present i)

/-- R92: there are no synchronous exceptions: no operation raises anything for any operand, so there is no cause to
record, and every evaluation and every step completes. -/
def Obligations.NoOperationRaisesAnything : Prop :=
  (∀ (i : Instr) (s : State), ∃ t, exec i s = .next t)
  ∧ (∀ s : State, ∃ t, step s = .next t)
  ∧ (∀ _ : Fault, False)

/-- R33, R21: the response to a request is a function of that request alone, the evaluation of any other operation
leaves it standing, and evaluations of different operations may be made in either order. -/
def Obligations.ResponseDependsOnItsRequestAlone : Prop :=
  (∀ (i : Instr) (s s' t t' : State), exec i s = .next t → exec i s' = .next t' →
    t.response i.operation = t'.response i.operation)
  ∧ (∀ (i j : Instr) (s t : State), i.operation ≠ j.operation → exec j s = .next t →
    t.response i.operation = s.response i.operation)
  ∧ ∀ (i j : Instr) (s t u t' u' : State), i.operation ≠ j.operation →
    exec i s = .next t → exec j t = .next u → exec j s = .next t' → exec i t' = .next u' → u = u'

/-- R31 (the spec's decision D13): evaluating the same operands again changes nothing, and so does a further step on the same request. -/
def Obligations.EvaluatingAgainChangesNothing : Prop :=
  (∀ (i : Instr) (s t : State), exec i s = .next t → exec i t = .next t)
  ∧ ∀ s t : State, step s = .next t → step t = .next t

/-- R94: a host that abandons a request and presents another gets the other's response; the step completes with it. -/
def Obligations.StepAnswersTheLastRequestPresented : Prop :=
  ∀ (i j : Instr) (s : State), ∃ t : State,
    step ((s.present i).present j) = .next t ∧ exec j (s.present j) = .next t ∧ t.request = encode j

/-! ## BitRotate -/

/-- R54: ROTL32 completes from every state with the operands and the rotated word on its ports, writes nothing else, and
the rotated word is what the pseudocode, the bit law and the corner cases of the rule say. -/
def Obligations.Rotl32RotatesLeft : Prop :=
  (∀ (k : Amount32) (x : Word32) (s : State), ∃ t : State,
    exec (.rotl32 k x) s = .next t
    ∧ t = { s with rotl32 := { k := k, x := x, result := t.rotl32.result } }
    ∧ t.rotl32.result = (if k = 0 then x else (x <<< k.toNat) ||| (x >>> (32 - k.toNat)))
    ∧ (∀ j < 32, t.rotl32.result.getLsbD ((j + k.toNat) % 32) = x.getLsbD j)
    ∧ (∀ j < 32, t.rotl32.result.getLsbD j = x.getLsbD ((j + 32 - k.toNat) % 32))
    ∧ (k = 31 → t.rotl32.result = x.rotateRight 1)
    ∧ (x = 0 → t.rotl32.result = 0)
    ∧ (x = 0xFFFFFFFF#32 → t.rotl32.result = 0xFFFFFFFF#32)
    ∧ (k ≠ 0 → (x <<< k.toNat) &&& (x >>> (32 - k.toNat)) = 0
        ∧ t.rotl32.result = (x <<< k.toNat) ^^^ (x >>> (32 - k.toNat))
        ∧ t.rotl32.result = (x <<< k.toNat) + (x >>> (32 - k.toNat))))
  ∧ ∀ s : State, ∃ t, exec (.rotl32 4 0xdeadbeef) s = .next t ∧ t.rotl32.result = 0xeadbeefd#32

/-- R55: ROTL64, likewise. -/
def Obligations.Rotl64RotatesLeft : Prop :=
  (∀ (k : Amount64) (x : Word64) (s : State), ∃ t : State,
    exec (.rotl64 k x) s = .next t
    ∧ t = { s with rotl64 := { k := k, x := x, result := t.rotl64.result } }
    ∧ t.rotl64.result = (if k = 0 then x else (x <<< k.toNat) ||| (x >>> (64 - k.toNat)))
    ∧ (∀ j < 64, t.rotl64.result.getLsbD ((j + k.toNat) % 64) = x.getLsbD j)
    ∧ (∀ j < 64, t.rotl64.result.getLsbD j = x.getLsbD ((j + 64 - k.toNat) % 64))
    ∧ (k = 32 → t.rotl64.result = x.extractLsb' 0 32 ++ x.extractLsb' 32 32)
    ∧ (k = 63 → t.rotl64.result = x.rotateRight 1)
    ∧ (x = 0 → t.rotl64.result = 0)
    ∧ (x = 0xFFFFFFFFFFFFFFFF#64 → t.rotl64.result = 0xFFFFFFFFFFFFFFFF#64))
  ∧ ∀ s : State, ∃ t,
      exec (.rotl64 4 0x0123456789abcdef) s = .next t ∧ t.rotl64.result = 0x123456789abcdef0#64

/-- R56 (the spec's decision D4): a rotate by 0 returns the operand unchanged; the document's own formula gives the same under the total shifts
of R10; and both callers do pass 0. -/
def Obligations.RotateByZeroIsTheIdentity : Prop :=
  (∀ (x : Word32) (s : State), ∃ t, exec (.rotl32 0 x) s = .next t ∧ t.rotl32.result = x)
  ∧ (∀ (x : Word64) (s : State), ∃ t, exec (.rotl64 0 x) s = .next t ∧ t.rotl64.result = x)
  ∧ (∀ x : Word32, x <<< 0 = x ∧ x >>> 32 = 0 ∧ (x <<< 0) ||| (x >>> 32) = x)
  ∧ (∀ x : Word64, x <<< 0 = x ∧ x >>> 64 = 0 ∧ (x <<< 0) ||| (x >>> 64) = x)
  ∧ (∃ p : Word32, ∀ v : Word32, (mixerWires p v).r = 0)
  ∧ ∃ a b : Word64, (extractWires (combine a b)).rotAmount = 0

/-- R58 (marked derived by the spec): rotates compose, are bijections with the complementary amount as inverse, keep the number of one bits, and
distribute over the bitwise operations; and the low half of a 64-bit rotate bit by bit. -/
def Obligations.RotatesComposeInvertAndDistribute : Prop :=
  (∀ (x : Word32) (j k : Amount32), rotl32 (rotl32 x j) k = rotl32 x (BitVec.ofNat 5 ((j.toNat + k.toNat) % 32)))
  ∧ (∀ (x : Word64) (j k : Amount64), rotl64 (rotl64 x j) k = rotl64 x (BitVec.ofNat 6 ((j.toNat + k.toNat) % 64)))
  ∧ (∀ k : Amount32, Function.Bijective (fun x => rotl32 x k)
      ∧ ∀ x, rotl32 (rotl32 x k) (BitVec.ofNat 5 ((32 - k.toNat) % 32)) = x
        ∧ rotl32 (rotl32 x (BitVec.ofNat 5 ((32 - k.toNat) % 32))) k = x)
  ∧ (∀ k : Amount64, Function.Bijective (fun x => rotl64 x k)
      ∧ ∀ x, rotl64 (rotl64 x k) (BitVec.ofNat 6 ((64 - k.toNat) % 64)) = x
        ∧ rotl64 (rotl64 x (BitVec.ofNat 6 ((64 - k.toNat) % 64))) k = x)
  ∧ (∀ (x : Word32) (k : Amount32), Reference.oneBits (rotl32 x k) = Reference.oneBits x)
  ∧ (∀ (x : Word64) (k : Amount64), Reference.oneBits (rotl64 x k) = Reference.oneBits x)
  ∧ (∀ (a b : Word32) (k : Amount32), rotl32 (a ^^^ b) k = rotl32 a k ^^^ rotl32 b k
      ∧ rotl32 (a &&& b) k = rotl32 a k &&& rotl32 b k
      ∧ rotl32 (a ||| b) k = rotl32 a k ||| rotl32 b k
      ∧ rotl32 (~~~a) k = ~~~(rotl32 a k))
  ∧ (∀ (a b : Word64) (k : Amount64), rotl64 (a ^^^ b) k = rotl64 a k ^^^ rotl64 b k
      ∧ rotl64 (a &&& b) k = rotl64 a k &&& rotl64 b k
      ∧ rotl64 (a ||| b) k = rotl64 a k ||| rotl64 b k
      ∧ rotl64 (~~~a) k = ~~~(rotl64 a k))
  ∧ ∀ (x : Word64) (k : Amount64) (j : Nat), j < 32 →
      ((rotl64 x k).setWidth 32).getLsbD j = x.getLsbD ((j + 64 - k.toNat) % 64)

/-! ## HashMixer -/

/-- R60, R64: UPDATE_HASH completes from every state with its operands and result on its ports, writes nothing else, and
its result is the eight steps in unbounded arithmetic with every sum and product reduced modulo 2^32; the corner cases
and the worked example of R60, and the overflow vector of R64. -/
def Obligations.UpdateHashMatchesUnboundedArithmetic : Prop :=
  (∀ (p v : Word32) (s : State), ∃ t : State,
    exec (.updateHash p v) s = .next t
    ∧ t = { s with updateHash := { previousHash := p, value := v, result := t.updateHash.result } }
    ∧ t.updateHash.result.toNat = Reference.updateHash p.toNat v.toNat)
  ∧ (∀ v : Word32, (mixerWires 0x8addb2d1 v).t1 = 0 ∧ (mixerWires 0x8addb2d1 v).r = 0)
  ∧ (∀ s : State, ∃ t, exec (.updateHash 0 0) s = .next t ∧ t.updateHash.result = 0x0900052d#32)
  ∧ mixerWires 0 0 =
      { t1 := 0x8addb2d1, r := 17, rv := 0x00000000, t2 := 0x174fee16, t3 := 0x4c0629e2, t4 := 0x4c06b1ee,
        t5 := 0x74c5b13a, t6 := 0x742c3a58, t7 := 0x742c3a5b, t8 := 0x48dcbb0d, t9 := 0x48dcf3d1,
        t10 := 0x0900052d }
  ∧ ∀ s : State, ∃ t,
      exec (.updateHash 0xffffffff 0xffffffff) s = .next t ∧ t.updateHash.result = 0xbdb8bbb2#32

/-- R63: the rotation amount is the low 5 bits of the hash after step S1, so of the previous hash xored with 0b10001; it
does not depend on the value; it takes every value, 0 exactly for previous hashes ending in 0b10001, and then the value
is not rotated. -/
def Obligations.MixerAmountComesFromThePreviousHash : Prop :=
  (∀ p v : Word32, (mixerWires p v).t1 = p ^^^ 0x8addb2d1#32
    ∧ (mixerWires p v).r = (mixerWires p v).t1.extractLsb' 0 5
    ∧ (mixerWires p v).r = p.extractLsb' 0 5 ^^^ 0b10001#5
    ∧ (mixerWires p v).rv = rotl32 v (mixerWires p v).r
    ∧ ((mixerWires p v).r = 0 ↔ p.extractLsb' 0 5 = 0b10001#5)
    ∧ ((mixerWires p v).r = 0 → (mixerWires p v).rv = v))
  ∧ (∀ p v v' : Word32, (mixerWires p v).r = (mixerWires p v').r)
  ∧ (∀ a : Amount32, ∃ p : Word32, ∀ v : Word32, (mixerWires p v).r = a)
  ∧ (∀ v : Word32, (mixerWires 0x8addb2d1 v).t1 = 0 ∧ (mixerWires 0x8addb2d1 v).r = 0)
  ∧ ∀ v : Word32, (mixerWires 0x00000011 v).r = 0

/-- R70 (a) (marked derived by the spec): with previous hash 0 the amount is 17 whatever the value, so the first round of every COMBINE rotates its
value by 17. -/
def Obligations.FreshChainRotatesBySeventeen : Prop :=
  (∀ v : Word32, (mixerWires 0 v).t1 = 0x8addb2d1#32 ∧ (mixerWires 0 v).r = 17)
  ∧ ∀ a b : Word64, (combineWires a b).fold.m1 = updateHash 0 (combineWires a b).aLo
      ∧ (mixerWires 0 (combineWires a b).aLo).rv = (combineWires a b).aLo.rotateLeft 17

/-- R70 (b) (marked derived by the spec): for a fixed previous hash, value to each of t2, t3, t4, t5 and t6 is a bijection;
t7 and each of t8, t9, t10 decide each other; and each line between these wires is the map R60 gives it: a multiplication
by C3, C4, C5 or C6, or v xor (v shifted right by n) with n at least 1, all of them bijections. -/
def Obligations.MixerLinesAreBijective : Prop :=
  (∀ p : Word32, Function.Bijective (fun v => (mixerWires p v).t2)
    ∧ Function.Bijective (fun v => (mixerWires p v).t3)
    ∧ Function.Bijective (fun v => (mixerWires p v).t4)
    ∧ Function.Bijective (fun v => (mixerWires p v).t5)
    ∧ Function.Bijective (fun v => (mixerWires p v).t6))
  ∧ (∀ p v p' v' : Word32,
      ((mixerWires p v).t7 = (mixerWires p' v').t7 ↔ (mixerWires p v).t8 = (mixerWires p' v').t8)
      ∧ ((mixerWires p v).t7 = (mixerWires p' v').t7 ↔ (mixerWires p v).t9 = (mixerWires p' v').t9)
      ∧ ((mixerWires p v).t7 = (mixerWires p' v').t7 ↔ (mixerWires p v).t10 = (mixerWires p' v').t10))
  ∧ (∀ p v : Word32,
      let w := mixerWires p v
      w.t3 = w.t2 * 0xfd923173#32
      ∧ w.t4 = w.t3 ^^^ (w.t3 >>> 15)
      ∧ w.t5 = w.t4 * 0x89a6aa0b#32
      ∧ w.t6 = w.t5 ^^^ (w.t5 >>> 7)
      ∧ w.t8 = w.t7 * 0x1f844cb7#32
      ∧ w.t9 = w.t8 ^^^ (w.t8 >>> 16)
      ∧ w.t10 = w.t9 * 0xfd2c1e9d#32)
  ∧ Function.Bijective (fun v : Word32 => v * 0xfd923173#32)
  ∧ Function.Bijective (fun v : Word32 => v * 0x89a6aa0b#32)
  ∧ Function.Bijective (fun v : Word32 => v * 0x1f844cb7#32)
  ∧ Function.Bijective (fun v : Word32 => v * 0xfd2c1e9d#32)
  ∧ ∀ n : Nat, 1 ≤ n → Function.Bijective fun v : Word32 => v ^^^ (v >>> n)

/-- R70 (c) (marked derived by the spec): the addition of line S6 is not injective, and UPDATE_HASH has a concrete collision, at result 0. -/
def Obligations.UpdateHashIsNotInjective : Prop :=
  (∀ s : State, ∃ t t' : State,
    exec (.updateHash 0x00000000 0x3b357ca8) s = .next t ∧ t.updateHash.result = 0
    ∧ exec (.updateHash 0x00000000 0x7587c026) s = .next t' ∧ t'.updateHash.result = 0)
  ∧ (mixerWires 0 0x3b357ca8).t6 = 0x00000000#32 ∧ (mixerWires 0 0x3b357ca8).t7 = 0
  ∧ (mixerWires 0 0x7587c026).t6 = 0xFFFFFFF9#32 ∧ (mixerWires 0 0x7587c026).t7 = 0
  ∧ ¬ Function.Injective (updateHash 0)

/-! ## CascadeInterleave -/

/-- R71: COMBINE completes from every state with its operands and result on its ports, writes nothing else, and its
result is the ten steps in unbounded arithmetic with every sum, difference and product reduced modulo 2^64; the corner
cases of the rule and its worked example. -/
def Obligations.CombineMatchesUnboundedArithmetic : Prop :=
  (∀ (a b : Word64) (s : State), ∃ t : State,
    exec (.combine a b) s = .next t
    ∧ t = { s with combine := { selector := a, index := b, state := t.combine.state } }
    ∧ t.combine.state.toNat = Reference.combine a.toNat b.toNat)
  ∧ (∀ b : Word64, (combineWires 0 b).pointers.aa = 0x61C8864680B583AB#64
    ∧ (combineWires 0 b).pointers.aa = 0 - 0x9E3779B97F4A7C55#64 ∧ (combineWires 0 b).pointers.am = 0)
  ∧ (∀ b : Word64, (combineWires 0xFFFFFFFFFFFFFFFF b).pointers.aa = 0
    ∧ (combineWires 0xFFFFFFFFFFFFFFFF b).pointers.am = 0)
  ∧ (∀ a : Word64, (combineWires a 0xFFFFFFFFFFFFFFFF).pointers.am = 0 →
    (combineWires a 0xFFFFFFFFFFFFFFFF).pointers.ao = 0)
  ∧ (∃ a b a' b' : Word64, (a, b) ≠ (a', b') ∧ combine a b = combine a' b')
  ∧ combineWires 0 0 =
      { pointers :=
          { pa := 0, aa := 0x61c8864680b583ab, am := 0, po := 0, ao := 0xffffffffffffffff, pp := 0,
            ap := 0x61c8864680b583ac }
        pLo := 0
        pHi := 0
        aLo := 0x80b583ac
        aHi := 0x61c88646
        fold :=
          { m1 := 0x102f0cfc, h1 := 0x00000000102f0cfc, m2 := 0xaf1019f9, h2 := 0x0000102fa3ec19f9,
            m3 := 0x97c43808, h3 := 0x102fa3ec8e3d3808, m4 := 0xb5c2d9c3, h4 := 0xa3ec8e3d8dcac9ec }
        state := 0xa2ddda9caca96e84 }

/-- R75 (the last two lines are marked derived by the spec): the rounds consume a_lo, a_hi, p_hi, p_lo in that order, each on the low 32 bits of the accumulator before it,
the first on the constant 0; and what rounds 2, 3 and 4 receive is not the bare result of the round before. -/
def Obligations.RoundsConsumeTheLanesInOrder : Prop :=
  ∀ a b : Word64,
    let w := combineWires a b
    w.fold.m1 = updateHash 0 (w.pointers.ap.extractLsb' 0 32)
    ∧ w.fold.m2 = updateHash (w.fold.h1.extractLsb' 0 32) (w.pointers.ap.extractLsb' 32 32)
    ∧ w.fold.m3 = updateHash (w.fold.h2.extractLsb' 0 32) (w.pointers.pp.extractLsb' 32 32)
    ∧ w.fold.m4 = updateHash (w.fold.h3.extractLsb' 0 32) (w.pointers.pp.extractLsb' 0 32)
    ∧ w.fold.h1.extractLsb' 0 32 = w.fold.m1
    ∧ w.fold.h2.extractLsb' 0 32 = w.fold.m2 ^^^ (w.fold.m1 <<< 16)
    ∧ w.fold.h3.extractLsb' 0 32 = w.fold.m3 ^^^ (w.fold.m2 <<< 16)

/-- R80 (marked derived by the spec): line F4 is a rotate by 16, the accumulators in terms of the four mixer results, and their bounds. -/
def Obligations.AccumulatorClosedForms : Prop :=
  (∀ a b c d : Word32,
    let w := foldWires a b c d
    (w.h3 <<< 16) &&& (w.h3 >>> 48) = 0
    ∧ (w.h3 <<< 16) ^^^ (w.h3 >>> 48) = (w.h3 <<< 16) ||| (w.h3 >>> 48)
    ∧ w.h4 = w.m4.setWidth 64 ^^^ rotl64 w.h3 16
    ∧ w.h1 = w.m1.setWidth 64
    ∧ w.h2 = w.m2.setWidth 64 ^^^ (w.m1.setWidth 64 <<< 16)
    ∧ w.h3 = w.m3.setWidth 64 ^^^ (w.m2.setWidth 64 <<< 16) ^^^ (w.m1.setWidth 64 <<< 32)
    ∧ w.h4 = w.m4.setWidth 64 ^^^ (w.m3.setWidth 64 <<< 16) ^^^ (w.m2.setWidth 64 <<< 32)
        ^^^ ((w.m1.extractLsb' 0 16).setWidth 64 <<< 48) ^^^ (w.m1.extractLsb' 16 16).setWidth 64
    ∧ w.h1.toNat < 2 ^ 32
    ∧ w.h2.toNat < 2 ^ 48)
  ∧ ∃ a b : Word64, (combineWires a b).fold.h3.getLsbD 63 = true ∧ (combineWires a b).fold.h4.getLsbD 63 = true

/-- R79 (the bijection is marked derived by the spec): the combined state is the last accumulator times K2 and nothing more, and that multiplication is a bijection. -/
def Obligations.FinalMultiplyIsABijection : Prop :=
  (∀ (a b : Word64) (s : State), ∃ t : State,
    exec (.combine a b) s = .next t ∧ t.combine.state = (combineWires a b).fold.h4 * 0x72A4EB92D796ED93#64)
  ∧ Function.Bijective fun h : Word64 => h * 0x72A4EB92D796ED93#64

/-- R82 (marked derived by the spec): the exact family of collisions of COMBINE and DERIVE, its instances, and a pair outside it that differs. -/
def Obligations.TopBitFlipsCollide : Prop :=
  (∀ a b : Word64, a.getLsbD 63 ≠ (~~~a * 0x9E3779B97F4A7C55#64).getLsbD 63 →
    combine (a ^^^ 0x8000000000000000#64) (b ^^^ 0x8000000000000000#64) = combine a b
    ∧ ∀ s : State, ∃ t t' : State,
      exec (.derive (a ^^^ 0x8000000000000000#64) (b ^^^ 0x8000000000000000#64)) s = .next t
      ∧ exec (.derive a b) s = .next t' ∧ t.derive.value = t'.derive.value)
  ∧ (∀ b : Word64,
    combine 0xFFFFFFFFFFFFFFFF b = combine 0x7FFFFFFFFFFFFFFF (b ^^^ 0x8000000000000000#64))
  ∧ derive 0xFFFFFFFFFFFFFFFF 0xFFFFFFFFFFFFFFFF = 0xc46578a7#32
  ∧ derive 0x7FFFFFFFFFFFFFFF 0x7FFFFFFFFFFFFFFF = 0xc46578a7#32
  ∧ derive 3 5 = 0xda55dd5c#32
  ∧ derive 0x8000000000000003 0x8000000000000005 = 0xda55dd5c#32
  ∧ derive 0 0 = 0x52dd0945#32
  ∧ derive 0x8000000000000000 0x8000000000000000 = 0x5a32b7a0#32

/-- R84 (the spec's decision D10; log 12 for the form of the iterated mixer): one mixer used four times gives the state of four chained mixers for every operand pair, so COMBINE is the same
whichever of the two an implementation has. -/
def Obligations.OneMixerOrFourGiveTheSameState : Prop :=
  (∀ a b : Word64, combineIterated a b = combine a b)
  ∧ ∀ (a b : Word64) (s : State), ∃ t : State,
      exec (.combine a b) s = .next t ∧ combineImplemented a b = t.combine.state

/-! ## Extract -/

/-- R85: DERIVE completes from every state with selector, index and value on the block's ports, writes nothing else, and
its value is the five steps in unbounded arithmetic; the corner cases of the rule and its worked example. -/
def Obligations.DeriveMatchesUnboundedArithmetic : Prop :=
  (∀ (a b : Word64) (s : State), ∃ t : State,
    exec (.derive a b) s = .next t
    ∧ t = { s with derive := { selector := a, index := b, value := t.derive.value } }
    ∧ t.derive.value.toNat = Reference.derive a.toNat b.toNat)
  ∧ (∀ a b : Word64, (extractWires (combine a b)).rotAmount = 0 → derive a b = (combine a b).extractLsb' 0 32)
  ∧ (∀ a b : Word64, (extractWires (combine a b)).rotAmount = 32 → derive a b = (combine a b).extractLsb' 32 32)
  ∧ (∃ a b a' b' : Word64, (a, b) ≠ (a', b') ∧ derive a b = derive a' b')
  ∧ combine 0 0 = 0xa2ddda9caca96e84#64
  ∧ extractWires 0xa2ddda9caca96e84 =
      { wLo := 0xaca96e84, wMid := 0x16eed4e5, wHi := 0x00000028, rotAmount := 9, rotated := 0xbbb5395952dd0945,
        value := 0x52dd0945 }
  ∧ derive 0 0 = 0x52dd0945#32 ∧ asSigned32 (derive 0 0) = 1390217541

/-- R86 (the spec's decisions D8, D9): the three windows of the state: the middle one is bits 60 to 29, the high one bits 63 to 58 with zeros above;
they overlap with the low window and with each other; and a middle window starting at bit 28 gives other outputs. -/
def Obligations.WindowsOfTheState : Prop :=
  (∀ state : Word64,
    let w := extractWires state
    w.wLo = state.extractLsb' 0 32
    ∧ w.wMid = state.extractLsb' 29 32
    ∧ w.wMid = (state >>> 29).setWidth 32
    ∧ w.wHi = (state >>> 58).setWidth 32
    ∧ w.wHi = (state.extractLsb' 58 6).setWidth 32
    ∧ (∀ j, 6 ≤ j → w.wHi.getLsbD j = false)
    ∧ w.wLo.extractLsb' 29 3 = w.wMid.extractLsb' 0 3
    ∧ w.wMid.extractLsb' 29 3 = w.wHi.extractLsb' 0 3)
  ∧ (∀ (a b : Word64) (s : State), ∃ t : State, exec (.derive a b) s = .next t
      ∧ t.derive.value = (extractWires (combine a b)).value)
  ∧ ∃ a b : Word64,
      (rotl64 (combine a b) (extractAmount (windowLo (combine a b)) ((combine a b >>> 28).setWidth 32)
        (windowHi (combine a b)))).setWidth 32 ≠ derive a b

/-- R87 (marked derived by the spec): only 18 bits of the state decide the rotate amount, and it makes no difference whether the two right shifts are
logical or arithmetic, or at which width the windows are computed, as the mask is applied last. -/
def Obligations.RotateAmountNeedsEighteenBits : Prop :=
  (∀ state : Word64,
    (extractWires state).rotAmount
        = state.extractLsb' 0 6 ^^^ state.extractLsb' 29 6 ^^^ state.extractLsb' 58 6
    ∧ (extractWires state).rotAmount
        = extractAmount (state.setWidth 32) ((state.sshiftRight 29).setWidth 32) ((state.sshiftRight 58).setWidth 32)
    ∧ (extractWires state).rotAmount = (state ^^^ (state >>> 29) ^^^ (state >>> 58)).setWidth 6
    ∧ (extractWires state).rotAmount
        = (state ^^^ state.sshiftRight 29 ^^^ state.sshiftRight 58).setWidth 6)
  ∧ ∀ st st' : Word64, st.extractLsb' 0 6 = st'.extractLsb' 0 6 → st.extractLsb' 29 6 = st'.extractLsb' 29 6 →
      st.extractLsb' 58 6 = st'.extractLsb' 58 6 → (extractWires st).rotAmount = (extractWires st').rotAmount

/-- R88 (that every amount occurs is marked derived by the spec): the rotate amount ranges over all of 0 to 63, each already among the pairs below 64; when it is 0 the value is
the low half of the state, as for DERIVE(0, 9). -/
def Obligations.EveryRotateAmountOccurs : Prop :=
  (∀ amount : Amount64, ∃ a b : Word64, a.toNat < 64 ∧ b.toNat < 64
    ∧ (extractWires (combine a b)).rotAmount = amount)
  ∧ (∀ a b : Word64, (extractWires (combine a b)).rotAmount.toNat ≤ 63)
  ∧ (∀ state : Word64, (extractWires state).rotAmount = 0 ↔
      state.extractLsb' 0 6 ^^^ state.extractLsb' 29 6 ^^^ state.extractLsb' 58 6 = 0)
  ∧ (∀ (a b : Word64) (s : State), (extractWires (combine a b)).rotAmount = 0 →
      (extractWires (combine a b)).rotated = combine a b
      ∧ ∃ t : State, exec (.derive a b) s = .next t ∧ t.derive.value = (combine a b).extractLsb' 0 32)
  ∧ combine 0 9 = 0x3cbf0579761fe944#64 ∧ (combine 0 9).extractLsb' 0 6 = 0b000100#6
  ∧ (combine 0 9).extractLsb' 29 6 = 0b001011#6 ∧ (combine 0 9).extractLsb' 58 6 = 0b001111#6
  ∧ (extractWires (combine 0 9)).rotAmount = 0
  ∧ derive 0 9 = 0x761fe944#32

/-- R89 (marked derived by the spec): the output is a window of 32 consecutive bits of the state, taken cyclically. -/
def Obligations.OutputIsACyclicWindowOfTheState : Prop :=
  ∀ (a b : Word64) (s : State), ∃ t : State,
    exec (.derive a b) s = .next t
    ∧ (∀ j < 32, t.derive.value.getLsbD j
        = (combine a b).getLsbD ((j + 64 - (extractWires (combine a b)).rotAmount.toNat) % 64))
    ∧ t.derive.value.getLsbD 0
        = (combine a b).getLsbD ((64 - (extractWires (combine a b)).rotAmount.toNat) % 64)
    ∧ t.derive.value
        = ((combine a b).rotateRight ((64 - (extractWires (combine a b)).rotAmount.toNat) % 64)).setWidth 32

/-- R90: the signed and the unsigned view of a result describe the same 32 wires; the feedback strategy takes the
unsigned view: the output enters the index with zeros above it. -/
def Obligations.SignedAndUnsignedViewOfAResult : Prop :=
  (∀ v : Word32, v.getLsbD 31 = false → asSigned32 v = (v.toNat : Int))
  ∧ (∀ v : Word32, v.getLsbD 31 = true → asSigned32 v = (v.toNat : Int) - 2 ^ 32)
  ∧ (∀ v : Word32, BitVec.ofInt 32 (asSigned32 v) = v)
  ∧ (∀ (it : StreamIterator) (out : Word32), it.strategy = .feedback →
      (it.advance out).curIndex.toNat = it.curIndex.toNat % 2 ^ 32 * 2 ^ 32 + out.toNat)
  ∧ derive 1 0 = 0xade3340c#32 ∧ (derive 1 0).toNat = 2917348364 ∧ asSigned32 (derive 1 0) = -1377618932

/-! ## The host's iterator and the implementations beside the reference block -/

/-- R49: NEXT evaluates DERIVE on the current pair, advances the host's own state, and returns the output; the strategies
are numbered 0, 1, 2. That any other number gives no strategy is the model's choice (log 13, DESIGN CHOICE), after R98, which
calls an unknown strategy code an error of the host's software. -/
def Obligations.NextEvaluatesThenAdvances : Prop :=
  (∀ (it : StreamIterator) (s : State), ∃ t : State,
    exec (.derive it.curSelector it.curIndex) (s.present (.derive it.curSelector it.curIndex)) = .next t
    ∧ t.derive.value = derive it.curSelector it.curIndex
    ∧ it.next s = .next (t.derive.value, it.advance t.derive.value, t))
  ∧ Strategy.ofCode 0 = some .sequential ∧ Strategy.ofCode 1 = some .swapped ∧ Strategy.ofCode 2 = some .feedback
  ∧ ∀ n, 3 ≤ n → Strategy.ofCode n = none

/-- R50 (the wrap is the spec's decision D20; log 13): the outputs of the sequential strategy, and where it leaves the host; the index wraps modulo 2^64. -/
def Obligations.SequentialOutputs : Prop :=
  (∀ (seed phase : Word64) (length : Nat) (s : State), ∃ t : State,
    StreamIterator.run length (StreamIterator.start .sequential seed phase) s
      = .next ((List.range length).map (fun n => derive seed (phase + BitVec.ofNat 64 n)),
          { strategy := .sequential, curSelector := seed, curIndex := phase + BitVec.ofNat 64 length }, t))
  ∧ ∀ (seed : Word64) (out : Word32),
      ((StreamIterator.start .sequential seed 0x7FFFFFFFFFFFFFFF).advance out).curIndex = 0x8000000000000000#64

/-- R51 (the wrap is the spec's decision D20; log 13): the outputs of the swapped strategy: the seed is the index, and the selector counts down from the phase, modulo
2^64. -/
def Obligations.SwappedOutputs : Prop :=
  ∀ (seed phase : Word64) (length : Nat) (s : State), ∃ t : State,
    StreamIterator.run length (StreamIterator.start .swapped seed phase) s
      = .next ((List.range length).map (fun n => derive (phase - BitVec.ofNat 64 n) seed),
          { strategy := .swapped, curSelector := phase - BitVec.ofNat 64 length, curIndex := seed }, t)

/-- R52 (the start is the spec's decision D19; log 13): the outputs of the feedback strategy are those of the recurrence, and the pair is a 128-bit shift register that
takes each output in at the bottom. -/
def Obligations.FeedbackOutputs : Prop :=
  (∀ (seed phase : Word64) (length : Nat) (s : State), ∃ t : State,
    StreamIterator.run length (StreamIterator.start .feedback seed phase) s
      = .next ((List.range length).map (fun n => derive (Reference.feedbackPair seed phase n).1
            (Reference.feedbackPair seed phase n).2),
          { strategy := .feedback, curSelector := (Reference.feedbackPair seed phase length).1,
            curIndex := (Reference.feedbackPair seed phase length).2 }, t))
  ∧ ∀ (a b : Word64) (out : Word32),
      let it' := StreamIterator.advance { strategy := .feedback, curSelector := a, curIndex := b } out
      it'.curSelector ++ it'.curIndex = a.extractLsb' 0 32 ++ b ++ out

/-- After four NEXT of the feedback strategy the host's pair is exactly the four outputs, whatever it started from (R52,
program P3). -/
def Obligations.FourFeedbackOutputsAreThePair : Prop :=
  ∀ (seed phase : Word64) (s : State), ∃ (o0 o1 o2 o3 : Word32) (t : State),
    StreamIterator.run 4 (StreamIterator.start .feedback seed phase) s
      = .next ([o0, o1, o2, o3], { strategy := .feedback, curSelector := o0 ++ o1, curIndex := o2 ++ o3 }, t)

/-- A host sequence has no other history (R107, T5): its outputs and its end depend on the iterator's start alone, not on
what stood on any port before. -/
def Obligations.HostSequenceHasNoOtherHistory : Prop :=
  ∀ (length : Nat) (it : StreamIterator) (s s' : State), ∃ (outs : List Word32) (it' : StreamIterator) (t t' : State),
    StreamIterator.run length it s = .next (outs, it', t)
    ∧ StreamIterator.run length it s' = .next (outs, it', t')
    ∧ outs.length = length

/-- R103 (a), (b), (c) (the spec's decision D2) for the pipeline of log 11, whose in-order form and one request at every
clock are the model's choices (log 16, log 17): responses leave in the order the requests entered, each the DERIVE of its
own pair; what the registers held before is seen in the first LATENCY words only; and with no register every request
answers at once, as the combinational block does. -/
def Obligations.PipelinedResponsesAreTheirRequestsOwn : Prop :=
  (∀ (p : Pipeline) (qs : List PairRequest),
    p.outputs qs = ((p.inFlight ++ qs).take qs.length).map fun q => derive q.selector q.index)
  ∧ (∀ qs : List PairRequest,
    (Pipeline.powerUp.outputs qs).drop Config.latency
      = (qs.take (qs.length - Config.latency)).map fun q => derive q.selector q.index)
  ∧ ∀ qs : List PairRequest,
      (Pipeline.outputs { inFlight := [] } qs) = qs.map fun q => derive q.selector q.index
end

