-- ==== Sys2Proof/Laws/Bits.lean ====
section
/-!
SUPPORT. Fields of a concatenation, for widths kept as sums: the operand-word formats (R39 to R44) are instances.
-/

namespace Sys2Proof

/-- The field in the high bits of a concatenation. -/
theorem extract_append_high {a b : Nat} (x : BitVec a) (y : BitVec b) : (x ++ y).extractLsb' b a = x := by
  ext j hj
  simp [BitVec.getLsbD_append, hj]

/-- The field in the low bits of a concatenation. -/
theorem extract_append_low {a b : Nat} (x : BitVec a) (y : BitVec b) : (x ++ y).extractLsb' 0 b = y := by
  ext j hj
  simp [BitVec.getLsbD_append, hj]

/-- A word is the concatenation of its two fields. -/
theorem append_extract {a b : Nat} (w : BitVec (a + b)) : w.extractLsb' b a ++ w.extractLsb' 0 b = w := by
  apply BitVec.eq_of_getLsbD_eq
  intro j hj
  rw [BitVec.getLsbD_append]
  split
  · next h => simp [h]
  · next h => simp [show j - b < a by omega, show b + (j - b) = j by omega]

end Sys2Proof
end

