-- ==== Sys2Proof/Laws/State.lean ====
section
/-!
SUPPORT. One lemma per field per update of State, and per result word of a port write.
-/

namespace Sys2Proof.Machine

@[simp] theorem State.present_request (i : Instr) (s : State) : (s.present i).request = encode i := rfl
@[simp] theorem State.present_rotl32 (i : Instr) (s : State) : (s.present i).rotl32 = s.rotl32 := rfl
@[simp] theorem State.present_rotl64 (i : Instr) (s : State) : (s.present i).rotl64 = s.rotl64 := rfl
@[simp] theorem State.present_updateHash (i : Instr) (s : State) : (s.present i).updateHash = s.updateHash := rfl
@[simp] theorem State.present_combine (i : Instr) (s : State) : (s.present i).combine = s.combine := rfl
@[simp] theorem State.present_derive (i : Instr) (s : State) : (s.present i).derive = s.derive := rfl

@[simp] theorem State.setRotl32_request (p : Rotl32Ports) (s : State) : (s.setRotl32 p).request = s.request := rfl
@[simp] theorem State.setRotl32_rotl32 (p : Rotl32Ports) (s : State) : (s.setRotl32 p).rotl32 = p := rfl
@[simp] theorem State.setRotl32_rotl64 (p : Rotl32Ports) (s : State) : (s.setRotl32 p).rotl64 = s.rotl64 := rfl
@[simp] theorem State.setRotl32_updateHash (p : Rotl32Ports) (s : State) : (s.setRotl32 p).updateHash = s.updateHash := rfl
@[simp] theorem State.setRotl32_combine (p : Rotl32Ports) (s : State) : (s.setRotl32 p).combine = s.combine := rfl
@[simp] theorem State.setRotl32_derive (p : Rotl32Ports) (s : State) : (s.setRotl32 p).derive = s.derive := rfl

@[simp] theorem State.setRotl64_request (p : Rotl64Ports) (s : State) : (s.setRotl64 p).request = s.request := rfl
@[simp] theorem State.setRotl64_rotl32 (p : Rotl64Ports) (s : State) : (s.setRotl64 p).rotl32 = s.rotl32 := rfl
@[simp] theorem State.setRotl64_rotl64 (p : Rotl64Ports) (s : State) : (s.setRotl64 p).rotl64 = p := rfl
@[simp] theorem State.setRotl64_updateHash (p : Rotl64Ports) (s : State) : (s.setRotl64 p).updateHash = s.updateHash := rfl
@[simp] theorem State.setRotl64_combine (p : Rotl64Ports) (s : State) : (s.setRotl64 p).combine = s.combine := rfl
@[simp] theorem State.setRotl64_derive (p : Rotl64Ports) (s : State) : (s.setRotl64 p).derive = s.derive := rfl

@[simp] theorem State.setUpdateHash_request (p : UpdateHashPorts) (s : State) : (s.setUpdateHash p).request = s.request := rfl
@[simp] theorem State.setUpdateHash_rotl32 (p : UpdateHashPorts) (s : State) : (s.setUpdateHash p).rotl32 = s.rotl32 := rfl
@[simp] theorem State.setUpdateHash_rotl64 (p : UpdateHashPorts) (s : State) : (s.setUpdateHash p).rotl64 = s.rotl64 := rfl
@[simp] theorem State.setUpdateHash_updateHash (p : UpdateHashPorts) (s : State) : (s.setUpdateHash p).updateHash = p := rfl
@[simp] theorem State.setUpdateHash_combine (p : UpdateHashPorts) (s : State) : (s.setUpdateHash p).combine = s.combine := rfl
@[simp] theorem State.setUpdateHash_derive (p : UpdateHashPorts) (s : State) : (s.setUpdateHash p).derive = s.derive := rfl

@[simp] theorem State.setCombine_request (p : CombinePorts) (s : State) : (s.setCombine p).request = s.request := rfl
@[simp] theorem State.setCombine_rotl32 (p : CombinePorts) (s : State) : (s.setCombine p).rotl32 = s.rotl32 := rfl
@[simp] theorem State.setCombine_rotl64 (p : CombinePorts) (s : State) : (s.setCombine p).rotl64 = s.rotl64 := rfl
@[simp] theorem State.setCombine_updateHash (p : CombinePorts) (s : State) : (s.setCombine p).updateHash = s.updateHash := rfl
@[simp] theorem State.setCombine_combine (p : CombinePorts) (s : State) : (s.setCombine p).combine = p := rfl
@[simp] theorem State.setCombine_derive (p : CombinePorts) (s : State) : (s.setCombine p).derive = s.derive := rfl

@[simp] theorem State.setDerive_request (p : DerivePorts) (s : State) : (s.setDerive p).request = s.request := rfl
@[simp] theorem State.setDerive_rotl32 (p : DerivePorts) (s : State) : (s.setDerive p).rotl32 = s.rotl32 := rfl
@[simp] theorem State.setDerive_rotl64 (p : DerivePorts) (s : State) : (s.setDerive p).rotl64 = s.rotl64 := rfl
@[simp] theorem State.setDerive_updateHash (p : DerivePorts) (s : State) : (s.setDerive p).updateHash = s.updateHash := rfl
@[simp] theorem State.setDerive_combine (p : DerivePorts) (s : State) : (s.setDerive p).combine = s.combine := rfl
@[simp] theorem State.setDerive_derive (p : DerivePorts) (s : State) : (s.setDerive p).derive = p := rfl

@[simp] theorem State.response_rotl32 (s : State) : s.response .rotl32 = BitVec.toNat s.rotl32.result := rfl
@[simp] theorem State.response_rotl64 (s : State) : s.response .rotl64 = BitVec.toNat s.rotl64.result := rfl
@[simp] theorem State.response_updateHash (s : State) : s.response .updateHash = BitVec.toNat s.updateHash.result := rfl
@[simp] theorem State.response_combine (s : State) : s.response .combine = BitVec.toNat s.combine.state := rfl
@[simp] theorem State.response_derive (s : State) : s.response .derive = BitVec.toNat s.derive.value := rfl

/-- Presenting twice leaves the second request only (R94). -/
@[simp] theorem State.present_present (i j : Instr) (s : State) : (s.present i).present j = s.present j := rfl

end Sys2Proof.Machine
end

