-- ==== Sys2Proof/Laws/Exec.lean ====
section
/-!
SUPPORT. What each evaluation and the step answer, said once: an evaluation writes the ports of its own unit and nothing
else, and the step evaluates the request.
-/

namespace Sys2Proof.Machine

@[simp] theorem exec_rotl32 (k : Amount32) (x : Word32) (s : State) :
    exec (.rotl32 k x) s = .next (s.setRotl32 { k := k, x := x, result := rotl32 x k }) := rfl

@[simp] theorem exec_rotl64 (k : Amount64) (x : Word64) (s : State) :
    exec (.rotl64 k x) s = .next (s.setRotl64 { k := k, x := x, result := rotl64 x k }) := rfl

@[simp] theorem exec_updateHash (p v : Word32) (s : State) :
    exec (.updateHash p v) s
      = .next (s.setUpdateHash { previousHash := p, value := v, result := updateHash p v }) := rfl

@[simp] theorem exec_combine (selector index : Word64) (s : State) :
    exec (.combine selector index) s
      = .next (s.setCombine { selector := selector, index := index, state := combine selector index }) := rfl

@[simp] theorem exec_derive (selector index : Word64) (s : State) :
    exec (.derive selector index) s
      = .next (s.setDerive { selector := selector, index := index, value := derive selector index }) := rfl

theorem step_eq (s : State) : step s = exec (decode s.request) s := rfl

/-- A table word is presented if it stands for an evaluation, and changes nothing otherwise. -/
theorem State.withFetchWord_eq (s : State) (nbits w : Nat) :
    s.withFetchWord nbits w = ((decodeTableWord nbits w).map fun i => s.present i).getD s := by
  unfold State.withFetchWord State.presentTableWord
  split <;> simp_all

end Sys2Proof.Machine
end

