-- ==== Sys2Proof/Laws/PerInstr.lean ====
section
/-!
SUPPORT. Family EncodingFits: the number an evaluation encodes to is an operand word of its own operation (R40 to R44),
so an encoded evaluation is never rejected as too wide.
-/

namespace Sys2Proof.Laws.EncodingFits

/-- The encoded evaluation fits the operand word of its operation. -/
def Statement (i : Instr) : Prop := i.operation.admits (encodeWord i) = true

theorem rotl32 (k : Amount32) (x : Word32) : Statement (.rotl32 k x) :=
  decide_eq_true (k ++ x).isLt

theorem rotl64 (k : Amount64) (x : Word64) : Statement (.rotl64 k x) :=
  decide_eq_true (k ++ x).isLt

theorem updateHash (previousHash value : Word32) : Statement (.updateHash previousHash value) :=
  decide_eq_true (previousHash ++ value).isLt

theorem combine (selector index : Word64) : Statement (.combine selector index) :=
  decide_eq_true (selector ++ index).isLt

theorem derive (selector index : Word64) : Statement (.derive selector index) :=
  decide_eq_true (selector ++ index).isLt

end Sys2Proof.Laws.EncodingFits
end

