-- ==== Sys2Proof/Laws/Wires.lean ====
section
/-!
SUPPORT. The lines of R60, R71 and R85 as equations between wires, and the rotates as the library's rotates.
-/

namespace Sys2Proof.Machine

theorem mixerWires_t1 (p v : Word32) : (mixerWires p v).t1 = p ^^^ mixC1 := rfl
theorem mixerWires_r (p v : Word32) : (mixerWires p v).r = mixAmount (mixerWires p v).t1 := rfl
theorem mixerWires_rv (p v : Word32) : (mixerWires p v).rv = rotl32 v (mixerWires p v).r := rfl
theorem mixerWires_t2 (p v : Word32) : (mixerWires p v).t2 = (mixerWires p v).t1 + (mixC2 ^^^ (mixerWires p v).rv) := rfl
theorem mixerWires_t3 (p v : Word32) : (mixerWires p v).t3 = (mixerWires p v).t2 * mixC3 := rfl
theorem mixerWires_t4 (p v : Word32) : (mixerWires p v).t4 = (mixerWires p v).t3 ^^^ ((mixerWires p v).t3 >>> 15) := rfl
theorem mixerWires_t5 (p v : Word32) : (mixerWires p v).t5 = (mixerWires p v).t4 * mixC4 := rfl
theorem mixerWires_t6 (p v : Word32) : (mixerWires p v).t6 = (mixerWires p v).t5 ^^^ ((mixerWires p v).t5 >>> 7) := rfl
theorem mixerWires_t7 (p v : Word32) : (mixerWires p v).t7 = (mixerWires p v).t6 + ((mixerWires p v).t6 >>> 29) := rfl
theorem mixerWires_t8 (p v : Word32) : (mixerWires p v).t8 = (mixerWires p v).t7 * mixC5 := rfl
theorem mixerWires_t9 (p v : Word32) : (mixerWires p v).t9 = (mixerWires p v).t8 ^^^ ((mixerWires p v).t8 >>> 16) := rfl
theorem mixerWires_t10 (p v : Word32) : (mixerWires p v).t10 = (mixerWires p v).t9 * mixC6 := rfl
theorem updateHash_eq (p v : Word32) : updateHash p v = (mixerWires p v).t10 := rfl

theorem pointerWires_pa (s i : Word64) : (pointerWires s i).pa = s := rfl
theorem pointerWires_aa (s i : Word64) : (pointerWires s i).aa = ~~~s * foldK1 := rfl
theorem pointerWires_am (s i : Word64) : (pointerWires s i).am = s &&& (pointerWires s i).aa := rfl
theorem pointerWires_po (s i : Word64) : (pointerWires s i).po = i := rfl
theorem pointerWires_ao (s i : Word64) : (pointerWires s i).ao = ~~~i ^^^ (pointerWires s i).am := rfl
theorem pointerWires_pp (s i : Word64) : (pointerWires s i).pp = s + i := rfl
theorem pointerWires_ap (s i : Word64) : (pointerWires s i).ap = (pointerWires s i).aa - (pointerWires s i).ao := rfl

theorem foldWires_m1 (a b c d : Word32) :
    (foldWires a b c d).m1 = updateHash chainStart a := rfl
theorem foldWires_h1 (a b c d : Word32) :
    (foldWires a b c d).h1 = widen (foldWires a b c d).m1 := rfl
theorem foldWires_m2 (a b c d : Word32) :
    (foldWires a b c d).m2 = updateHash (accLow (foldWires a b c d).h1) b := rfl
theorem foldWires_h2 (a b c d : Word32) :
    (foldWires a b c d).h2 = widen (foldWires a b c d).m2 ^^^ ((foldWires a b c d).h1 <<< 16) := rfl
theorem foldWires_m3 (a b c d : Word32) :
    (foldWires a b c d).m3 = updateHash (accLow (foldWires a b c d).h2) c := rfl
theorem foldWires_h3 (a b c d : Word32) :
    (foldWires a b c d).h3 = widen (foldWires a b c d).m3 ^^^ ((foldWires a b c d).h2 <<< 16) := rfl
theorem foldWires_m4 (a b c d : Word32) :
    (foldWires a b c d).m4 = updateHash (accLow (foldWires a b c d).h3) d := rfl
theorem foldWires_h4 (a b c d : Word32) :
    (foldWires a b c d).h4 = widen (foldWires a b c d).m4 ^^^ ((foldWires a b c d).h3 <<< 16) ^^^ ((foldWires a b c d).h3 >>> 48) := rfl

/-- The state of COMBINE is a function of the two pointers alone (R71, R82). -/
theorem combine_eq (s i : Word64) :
    combine s i
      = (foldWires (laneLo (pointerWires s i).ap) (laneHi (pointerWires s i).ap)
          (laneHi (pointerWires s i).pp) (laneLo (pointerWires s i).pp)).h4 * foldK2 := rfl

theorem combineWires_state (s i : Word64) : (combineWires s i).state = combine s i := rfl
theorem combineWires_pointers (s i : Word64) : (combineWires s i).pointers = pointerWires s i := rfl
theorem combineWires_fold (s i : Word64) :
    (combineWires s i).fold
      = foldWires (laneLo (pointerWires s i).ap) (laneHi (pointerWires s i).ap)
          (laneHi (pointerWires s i).pp) (laneLo (pointerWires s i).pp) := rfl

theorem extractWires_wLo (w : Word64) : (extractWires w).wLo = windowLo w := rfl
theorem extractWires_wMid (w : Word64) : (extractWires w).wMid = windowMid w := rfl
theorem extractWires_wHi (w : Word64) : (extractWires w).wHi = windowHi w := rfl
theorem extractWires_rotAmount (w : Word64) : (extractWires w).rotAmount = extractAmount (windowLo w) (windowMid w) (windowHi w) := rfl
theorem extractWires_rotated (w : Word64) : (extractWires w).rotated = rotl64 w (extractWires w).rotAmount := rfl
theorem extractWires_value (w : Word64) : (extractWires w).value = (extractWires w).rotated.setWidth 32 := rfl
theorem derive_eq (s i : Word64) : derive s i = (extractWires (combine s i)).value := rfl

/-- ROTL32 is the library's left-rotate (R54, R56). -/
theorem rotl32_eq_rotateLeft (x : Word32) (k : Amount32) : rotl32 x k = x.rotateLeft k.toNat := by
  unfold rotl32
  split
  · next h => subst h; simp [BitVec.rotateLeft_def, BitVec.ushiftRight_eq_zero]
  · rw [BitVec.rotateLeft_def, Nat.mod_eq_of_lt k.isLt]

/-- ROTL64 is the library's left-rotate (R55, R56). -/
theorem rotl64_eq_rotateLeft (x : Word64) (k : Amount64) : rotl64 x k = x.rotateLeft k.toNat := by
  unfold rotl64
  split
  · next h => subst h; simp [BitVec.rotateLeft_def, BitVec.ushiftRight_eq_zero]
  · rw [BitVec.rotateLeft_def, Nat.mod_eq_of_lt k.isLt]

end Sys2Proof.Machine
end

