-- ==== Sys2Proof/Tests/Slice0.lean ====
section
/-!
SUPPORT. The session's own tests. Every expected number is copied from a table of spec/95_test_vectors.md (vector ids
RV, HV, CV, DV, programs P) or written out from a format of spec/30_encoding.md; none is the model's own answer.
-/

namespace Sys2Proof.Tests

open Sys2Proof.Machine

/-- What `f` reads in the next state, if the outcome is one. -/
def after {α : Type} (f : State → α) : Host.Outcome State Fault Refusal → Option α
  | .next t => some (f t)
  | .fault _ => none
  | .refused _ => none

/-! Well-formedness: the smallest number that is no operand word of each operation, and the largest that is (R40 to
R44). -/

theorem test_rotl32_word_too_wide : Operation.admits .rotl32 (2 ^ 37) = false ∧ Operation.admits .rotl32 (2 ^ 37 - 1) = true := by decide
theorem test_rotl64_word_too_wide : Operation.admits .rotl64 (2 ^ 70) = false ∧ Operation.admits .rotl64 (2 ^ 70 - 1) = true := by decide
theorem test_update_hash_word_too_wide : Operation.admits .updateHash (2 ^ 64) = false ∧ Operation.admits .updateHash (2 ^ 64 - 1) = true := by decide
theorem test_combine_word_too_wide : Operation.admits .combine (2 ^ 128) = false ∧ Operation.admits .combine (2 ^ 128 - 1) = true := by decide
theorem test_derive_word_too_wide : Operation.admits .derive (2 ^ 128) = false ∧ Operation.admits .derive (2 ^ 128 - 1) = true := by decide
theorem test_too_wide_is_rejected_by_name :
    decodeWord .rotl32 0x20_0000_0000 = .error (.wordTooWide .rotl32) := by decide
theorem test_padding_bit_is_rejected : decodeTableWord 40 0x20_0000_0000 = none := by decide

/-! Decoding: words written out bit by bit from R40 to R44. -/

/-- R40: k = 00100 in bits 36 to 32, x = deadbeef below it (RV6). -/
theorem test_decode_rotl32 :
    decodeWord .rotl32 0b00100_11011110101011011011111011101111 = .ok (.rotl32 4 0xdeadbeef) := by decide
/-- R41: k = 111111 in bits 69 to 64, x = 1 (RV15). -/
theorem test_decode_rotl64 :
    decodeWord .rotl64 0b111111_0000000000000000000000000000000000000000000000000000000000000001
      = .ok (.rotl64 63 1) := by decide
/-- R42: previous_hash in bits 63 to 32 (0900052d), value 0 below it (HV11). -/
theorem test_decode_update_hash :
    decodeWord .updateHash 0b00001001000000000000010100101101_00000000000000000000000000000000
      = .ok (.updateHash 0x0900052d 0) := by decide
/-- R43: selector in bits 127 to 64, index in 63 to 0 (CV14). -/
theorem test_decode_combine :
    decodeWord .combine 0x0123456789abcdeffedcba9876543210
      = .ok (.combine 0x0123456789abcdef 0xfedcba9876543210) := by decide
/-- R44: the request word of program P2, line 2. -/
theorem test_decode_derive :
    decodeWord .derive 0xffffffffffffffff0000000000000007 = .ok (.derive 0xffffffffffffffff 7) := by decide
/-- R40 to R44 the other way: operand words of RV9, RV21, HV8 and of P5. -/
theorem test_encode_words :
    encodeWord (.rotl32 31 0xdeadbeef) = 0x1fdeadbeef
      ∧ encodeWord (.rotl64 63 0x0123456789abcdef) = 0x3f0123456789abcdef
      ∧ encodeWord (.updateHash 0x8addb2d0 0xdeadbeef) = 0x8addb2d0deadbeef
      ∧ encodeWord (.combine 0x2a 7) = 0x000000000000002a0000000000000007
      ∧ encodeWord (.derive 0x2a 7) = 0x000000000000002a0000000000000007 := by decide

/-! One step from reset for each operation. -/

/-- RV8: the amount of every round 1. -/
theorem test_rotl32_by_17 :
    after (fun t => t.rotl32.result) (step (State.reset.withFetchWord 40 0x11deadbeef)) = some 0x7ddfbd5b := by decide
/-- RV5: amount 0 is the identity (R56). -/
theorem test_rotl32_by_0 :
    after (fun t => t.rotl32.result) (step (State.reset.withFetchWord 40 0x00deadbeef)) = some 0xdeadbeef := by decide
/-- RV20: equals a right-rotate by 4. -/
theorem test_rotl64_by_60 :
    after (fun t => t.rotl64.result) (step (State.reset.withFetchWord 72 0x3c0123456789abcdef))
      = some 0xf0123456789abcde := by decide
/-- RV25: the rotate inside DERIVE(0, 9), amount 0. -/
theorem test_rotl64_by_0 :
    after (fun t => t.rotl64.result) (step (State.reset.withFetchWord 72 0x003cbf0579761fe944))
      = some 0x3cbf0579761fe944 := by decide
/-- HV4: every multiplication overflows. -/
theorem test_update_hash_wraps :
    after (fun t => t.updateHash.result) (step (State.reset.withFetchWord 64 0xffffffffffffffff))
      = some 0xbdb8bbb2 := by decide
/-- HV15, all its wires: the addition of S6 overflows. -/
theorem test_update_hash_wires :
    mixerWires 0 0xe4d95585 =
      { t1 := 0x8addb2d1, r := 17, rv := 0xab0bc9b2, t2 := 0xb257a5c8, t3 := 0x182ac0d8, t4 := 0x182af08d,
        t5 := 0xfe03f80f, t6 := 0xffffffff, t7 := 0x00000006, t8 := 0xbd19cc4a, t9 := 0xbd197153,
        t10 := 0x752639e7 } := by decide
/-- CV12: INT64_MIN and INT64_MAX, the mask is not 0. -/
theorem test_combine_extremes :
    after (fun t => t.combine.state) (step (State.reset.present (.combine 0x8000000000000000 0x7fffffffffffffff)))
      = some 0x655583999bff0776 := by decide
/-- CV14: pointers and fold, wire by wire. -/
theorem test_combine_wires :
    (combineWires 0x0123456789abcdef 0xfedcba9876543210).pointers =
        { pa := 0x0123456789abcdef, aa := 0x0c6384ac7ad45f50, am := 0x0023042408804d40, po := 0xfedcba9876543210,
          ao := 0x01004143812b80af, pp := 0xffffffffffffffff, ap := 0x0b634368f9a8dea1 }
      ∧ (combineWires 0x0123456789abcdef 0xfedcba9876543210).fold =
        { m1 := 0xa54779b9, h1 := 0xa54779b9, m2 := 0x73613989, h2 := 0x0000a5470ad83989, m3 := 0xc3b6645e,
          h3 := 0xa5470ad8fa3f645e, m4 := 0x282815a9, h4 := 0x0ad8fa3f4c76b0ee } := by decide
/-- DV2: DERIVE(1, 0), rotate amount 63. -/
theorem test_derive_selector_1 :
    after (fun t => t.derive.value) (step (State.reset.withFetchWord 128 0x10000000000000000)) = some 0xade3340c := by decide
/-- DV14: the windows, the amount, the rotated state and the value. -/
theorem test_derive_wires :
    extractWires 0xc9262a025767eeaa =
      { wLo := 0x5767eeaa, wMid := 0x49315012, wHi := 0x00000032, rotAmount := 10, rotated := 0x98a8095d9fbaab24,
        value := 0x9fbaab24 } := by decide
/-- R27: before any request the output is DERIVE(0, 0) on the inputs 0 (DV1; the inputs are log 4's). -/
theorem test_reset_value : State.reset.derive.value = 0x52dd0945 := by decide
/-- DV2 as a signed 32-bit integer (R90). -/
theorem test_signed_view : asSigned32 0xade3340c = -1377618932 := by decide

/-! The host's iterator: one NEXT of each strategy (programs P1, P2, P4). -/

/-- What one NEXT returns and where the iterator stands after it. -/
def afterNext : Host.Outcome (Word32 × StreamIterator × State) Fault Refusal → Option (Word32 × StreamIterator)
  | .next (out, it, _) => some (out, it)
  | .fault _ => none
  | .refused _ => none

/-- P1, line 1: the index wraps from ffffffffffffffff to 0 (D20). -/
theorem test_sequential_next :
    afterNext ((StreamIterator.start .sequential 1 0xffffffffffffffff).next State.reset)
      = some (0x26bcc2cb, { strategy := .sequential, curSelector := 1, curIndex := 0 }) := by decide
/-- P2, line 1: the selector wraps from 0 to ffffffffffffffff (D20). -/
theorem test_swapped_next :
    afterNext ((StreamIterator.start .swapped 7 0).next State.reset)
      = some (0xf9c63730, { strategy := .swapped, curSelector := 0xffffffffffffffff, curIndex := 7 }) := by decide
/-- P4, line 0. -/
theorem test_feedback_next :
    afterNext ((StreamIterator.start .feedback 0xffffffffffffffff 0x0000000123456789).next State.reset)
      = some (0xa95ffdb5,
          { strategy := .feedback, curSelector := 0xffffffff00000001, curIndex := 0x23456789a95ffdb5 }) := by decide

/-! The spec's functions over unbounded numbers, and the implementations beside the reference block. -/

/-- HV6 and CV9, DV9 in the unbounded form. -/
theorem test_reference_functions :
    Reference.updateHash 0x12345678 0x9abcdef0 = 0x9a0a7276
      ∧ Reference.combine 0xffffffffffffffff 0xffffffffffffffff = 0x92b3632c46578a7a
      ∧ Reference.derive 0xffffffffffffffff 0xffffffffffffffff = 0xc46578a7 := by decide
/-- CV15 by four rounds of one mixer (R84). -/
theorem test_iterated_mixer : combineIterated 0x2a 7 = 0xe6f8f15f0658fa64 := by decide

/-! Witnesses: for each obligation with hypotheses, a state and operands that meet them, at the edge of each clause. -/

/-- StepRunsTheRequestedEvaluation, EncodeDecodeAgree: the largest word of each rotate format decodes. -/
theorem test_witness_decodeWord :
    decodeWord .rotl32 (2 ^ 37 - 1) = .ok (.rotl32 31 0xffffffff)
      ∧ decodeWord .rotl64 (2 ^ 70 - 1) = .ok (.rotl64 63 0xffffffffffffffff) := by decide
/-- TableWordIsPresentedAndRun: both branches, at the two lengths whose whole bytes hold padding. -/
theorem test_witness_decodeTableWord :
    decodeTableWord 40 0x04deadbeef = some (.rotl32 4 0xdeadbeef)
      ∧ decodeTableWord 72 0x3f0000000000000001 = some (.rotl64 63 1)
      ∧ decodeTableWord 72 (2 ^ 70) = none ∧ decodeTableWord 8 0 = none := by decide
/-- EveryOperandWordHasOneResult: the last word inside and the first outside. -/
theorem test_witness_word_bounds :
    2 ^ 37 - 1 < 2 ^ Operation.width .rotl32 ∧ 2 ^ Operation.width .rotl32 ≤ 2 ^ 37 := by decide
/-- StepKeepsEveryOutputSettled, EvaluationSettlesItsUnit: the state before the first request is settled, and its step
is a next state. -/
theorem test_witness_settled_step :
    Settled State.reset ∧ after (fun _ => true) (step State.reset) = some true := by decide
/-- EvaluationSettlesItsUnit, NoOperationRaisesAnything, EvaluatingAgainChangesNothing: each operation answers a next
state there. -/
theorem test_witness_each_completes :
    after (fun _ => true) (exec (.rotl32 31 1) State.reset) = some true
      ∧ after (fun _ => true) (exec (.rotl64 63 1) State.reset) = some true
      ∧ after (fun _ => true) (exec (.updateHash 1 1) State.reset) = some true
      ∧ after (fun _ => true) (exec (.combine 1 1) State.reset) = some true
      ∧ after (fun _ => true) (exec (.derive 1 1) State.reset) = some true := by decide
/-- ResponseDependsOnItsRequestAlone: two evaluations of different operations on one operand pair. -/
theorem test_witness_different_operations :
    Instr.operation (.combine 1 0) ≠ Instr.operation (.derive 1 0) := by decide
/-- Rotl32RotatesLeft: k = 31 and the fixed points (RV3, RV10, RV11). -/
theorem test_witness_rotl32_corners :
    rotl32 1 31 = 0x80000000 ∧ (1 : Word32).rotateRight 1 = 0x80000000
      ∧ rotl32 0xffffffff 13 = 0xffffffff ∧ rotl32 0 7 = 0 ∧ (31 : Amount32) ≠ 0 := by decide
/-- Rotl64RotatesLeft: k = 32, k = 63 and the fixed points (RV19, RV21, RV22, RV23). -/
theorem test_witness_rotl64_corners :
    rotl64 0x0123456789abcdef 32 = 0x89abcdef01234567 ∧ rotl64 0x0123456789abcdef 63 = 0x8091a2b3c4d5e6f7
      ∧ rotl64 0xffffffffffffffff 17 = 0xffffffffffffffff ∧ rotl64 0 33 = 0 := by decide
/-- MixerAmountComesFromThePreviousHash: an amount of 0 (HV10) and one that is not (HV9). -/
theorem test_witness_mixer_amount :
    (mixerWires 0x00000011 0xdeadbeef).r = 0 ∧ (mixerWires 0x00000011 0xdeadbeef).rv = 0xdeadbeef
      ∧ (mixerWires 0x8addb2ce 1).r = 31 := by decide
/-- MixerLinesAreBijective: the least shift; and equal t7 (the collision of R70 (c), HV13 and HV14) with equal t10. -/
theorem test_witness_least_shift : 1 ≤ 1 ∧ (0x80000000 : Word32) ^^^ (0x80000000 >>> 1) = 0xc0000000
    ∧ (mixerWires 0 0x3b357ca8).t7 = (mixerWires 0 0x7587c026).t7
    ∧ (mixerWires 0 0x3b357ca8).t10 = (mixerWires 0 0x7587c026).t10 := by decide
/-- CombineMatchesUnboundedArithmetic, the clause on the mask: index -1 with mask 0 (CV8, CV9). -/
theorem test_witness_mask_zero :
    (combineWires 0 0xffffffffffffffff).pointers.am = 0 ∧ (combineWires 0 0xffffffffffffffff).pointers.ao = 0 := by decide
/-- TopBitFlipsCollide: the selector of CV19 meets the condition, and that of CV1 does not. -/
theorem test_witness_collision_condition :
    BitVec.getLsbD (3 : Word64) 63 ≠ (~~~(3 : Word64) * 0x9E3779B97F4A7C55).getLsbD 63
      ∧ BitVec.getLsbD (0 : Word64) 63 = (~~~(0 : Word64) * 0x9E3779B97F4A7C55).getLsbD 63 := by decide
/-- RotateAmountNeedsEighteenBits: two different states that agree in the three fields. -/
theorem test_witness_eighteen_bits :
    (0 : Word64) ≠ 0x40 ∧ (0 : Word64).extractLsb' 0 6 = (0x40 : Word64).extractLsb' 0 6
      ∧ (0 : Word64).extractLsb' 29 6 = (0x40 : Word64).extractLsb' 29 6
      ∧ (0 : Word64).extractLsb' 58 6 = (0x40 : Word64).extractLsb' 58 6 := by decide
/-- EveryRotateAmountOccurs, DeriveMatchesUnboundedArithmetic: amounts 0 and 32 (DV16, DV17). -/
theorem test_witness_amounts :
    (extractWires (combine 0 9)).rotAmount = 0 ∧ derive 0 9 = 0x761fe944
      ∧ (extractWires (combine 0 10)).rotAmount = 32 ∧ derive 0 10 = 0x990c6a8f := by decide
/-- SignedAndUnsignedViewOfAResult: both sides of the sign, at the bound, and a feedback iterator, which takes
an output with bit 31 set in with zeros above it (R52, R90). -/
theorem test_witness_sign_bound :
    BitVec.getLsbD (0x7fffffff : Word32) 31 = false ∧ asSigned32 0x7fffffff = 2147483647
      ∧ BitVec.getLsbD (0x80000000 : Word32) 31 = true ∧ asSigned32 0x80000000 = -2147483648
      ∧ (StreamIterator.start .feedback 0 0).strategy = .feedback
      ∧ ((StreamIterator.start .feedback 0 5).advance 0xade3340c).curIndex = 0x5ade3340c := by decide
/-- NextEvaluatesThenAdvances: the least code that names no strategy. -/
theorem test_witness_unknown_strategy : 3 ≤ 3 ∧ Strategy.ofCode 3 = none := by decide

end Sys2Proof.Tests
end

