-- ==== Sys2Proof/Proofs/Settled.lean ====
section
/-!
PROOFS. Settled states: the rules for writing the ports of one unit, for presenting a request and for an evaluation, and
the three obligations on what stands on the ports (R22, R27, R103).
-/

namespace Sys2Proof.Machine

/-! ## One rule per update of the state -/

theorem Settled.setRotl32 {s : State} {p : Rotl32Ports} (hs : Settled s) (hp : p.settled) :
    Settled (s.setRotl32 p) := by
  obtain ⟨_, h64, hhash, hcomb, hder⟩ := hs
  exact ⟨hp, h64, hhash, hcomb, hder⟩

theorem Settled.setRotl64 {s : State} {p : Rotl64Ports} (hs : Settled s) (hp : p.settled) :
    Settled (s.setRotl64 p) := by
  obtain ⟨h32, _, hhash, hcomb, hder⟩ := hs
  exact ⟨h32, hp, hhash, hcomb, hder⟩

theorem Settled.setUpdateHash {s : State} {p : UpdateHashPorts} (hs : Settled s) (hp : p.settled) :
    Settled (s.setUpdateHash p) := by
  obtain ⟨h32, h64, _, hcomb, hder⟩ := hs
  exact ⟨h32, h64, hp, hcomb, hder⟩

theorem Settled.setCombine {s : State} {p : CombinePorts} (hs : Settled s) (hp : p.settled) :
    Settled (s.setCombine p) := by
  obtain ⟨h32, h64, hhash, _, hder⟩ := hs
  exact ⟨h32, h64, hhash, hp, hder⟩

theorem Settled.setDerive {s : State} {p : DerivePorts} (hs : Settled s) (hp : p.settled) :
    Settled (s.setDerive p) := by
  obtain ⟨h32, h64, hhash, hcomb, _⟩ := hs
  exact ⟨h32, h64, hhash, hcomb, hp⟩

/-- The request lines are no part of what is settled (R94). -/
theorem settled_present_iff (i : Instr) (s : State) : Settled (s.present i) ↔ Settled s := Iff.rfl

/-! ## Evaluations and steps -/

/-- An evaluation writes the ports of its unit with that unit's own result, so nothing is unsettled (R33, R103). -/
theorem settled_of_exec {i : Instr} {s t : State} (hs : Settled s) (h : exec i s = .next t) : Settled t := by
  cases i with
  | rotl32 k x => rw [exec_rotl32] at h; cases h; exact hs.setRotl32 rfl
  | rotl64 k x => rw [exec_rotl64] at h; cases h; exact hs.setRotl64 rfl
  | updateHash p v => rw [exec_updateHash] at h; cases h; exact hs.setUpdateHash rfl
  | combine a b => rw [exec_combine] at h; cases h; exact hs.setCombine rfl
  | derive a b => rw [exec_derive] at h; cases h; exact hs.setDerive rfl

/-- A step is the evaluation of the request (R107), whatever that is. -/
theorem settled_of_step {s t : State} (hs : Settled s) (h : step s = .next t) : Settled t := by
  rw [step_eq] at h
  exact settled_of_exec hs h

/-! ## The obligations -/

/-- Settles O8: the step is the evaluation of the request, and every evaluation keeps a settled state settled. -/
theorem stepKeepsEveryOutputSettled : Obligations.StepKeepsEveryOutputSettled :=
  fun _ _ hs h => settled_of_step hs h

/-- Settles O9: each evaluation writes its own unit's result beside its operands, whatever stood there before; the last
two clauses are the rules for an evaluation and for presenting. -/
theorem evaluationSettlesItsUnit : Obligations.EvaluationSettlesItsUnit := by
  refine ⟨?rotl32, ?rotl64, ?updateHash, ?combine, ?derive, ?keeps, ?presenting⟩
  case rotl32 => intro k x s t h; rw [exec_rotl32] at h; cases h; rfl
  case rotl64 => intro k x s t h; rw [exec_rotl64] at h; cases h; rfl
  case updateHash => intro p v s t h; rw [exec_updateHash] at h; cases h; rfl
  case combine => intro a b s t h; rw [exec_combine] at h; cases h; rfl
  case derive => intro a b s t h; rw [exec_derive] at h; cases h; rfl
  case keeps => exact fun _ _ _ hs h => settled_of_exec hs h
  case presenting => exact fun i s hs => (settled_present_iff i s).mpr hs

/-- Settles O7: each output of the reset state is written as its unit's function of the zero inputs, and DERIVE(0, 0) is
evaluated. -/
theorem resetIsSettled : Obligations.ResetIsSettled :=
  ⟨⟨rfl, rfl, rfl, rfl, rfl⟩, by decide⟩

end Sys2Proof.Machine
end

