-- ==== Sys2Proof/Proofs/Independence.lean ====
section
/-!
PROOFS. Evaluations share nothing (R31, R33). A state is the request and one set of ports for each operation, and an
evaluation is the update of that family at its own operation with ports that depend on the request alone. Independence,
commutation and idempotence are then the library's laws of `Function.update`.
-/

namespace Sys2Proof

/-- The ports of the unit of an operation (R40 to R44). -/
abbrev Operation.Ports : Operation → Type
  | .rotl32 => Machine.Rotl32Ports
  | .rotl64 => Machine.Rotl64Ports
  | .updateHash => Machine.UpdateHashPorts
  | .combine => Machine.CombinePorts
  | .derive => Machine.DerivePorts

/-- The result word on a unit's ports, as a number (R39). -/
def Operation.Ports.result : {op : Operation} → op.Ports → Nat
  | .rotl32, p => BitVec.toNat (Machine.Rotl32Ports.result p)
  | .rotl64, p => BitVec.toNat (Machine.Rotl64Ports.result p)
  | .updateHash, p => BitVec.toNat (Machine.UpdateHashPorts.result p)
  | .combine, p => BitVec.toNat (Machine.CombinePorts.state p)
  | .derive, p => BitVec.toNat (Machine.DerivePorts.value p)

/-- What an evaluation leaves on the ports of its unit: it reads no state (R33 (a)). -/
def Instr.ports : (i : Instr) → i.operation.Ports
  | .rotl32 k x => { k := k, x := x, result := Machine.rotl32 x k }
  | .rotl64 k x => { k := k, x := x, result := Machine.rotl64 x k }
  | .updateHash p v => { previousHash := p, value := v, result := Machine.updateHash p v }
  | .combine a b => { selector := a, index := b, state := Machine.combine a b }
  | .derive a b => { selector := a, index := b, value := Machine.derive a b }

end Sys2Proof

namespace Sys2Proof.Machine

/-! ## A state as a request and a family of ports -/

/-- The ports that stand in a state, by operation. -/
def State.ports (s : State) : (op : Operation) → op.Ports
  | .rotl32 => s.rotl32
  | .rotl64 => s.rotl64
  | .updateHash => s.updateHash
  | .combine => s.combine
  | .derive => s.derive

/-- The state with this request and these ports. -/
def State.ofPorts (request : OperandWord) (f : (op : Operation) → op.Ports) : State where
  request := request
  rotl32 := f .rotl32
  rotl64 := f .rotl64
  updateHash := f .updateHash
  combine := f .combine
  derive := f .derive

/-- Write the ports of the unit of `op`. -/
def State.setPorts (op : Operation) (p : op.Ports) (s : State) : State :=
  .ofPorts s.request (Function.update s.ports op p)

@[simp] theorem State.ofPorts_request (request : OperandWord) (f : (op : Operation) → op.Ports) :
    (State.ofPorts request f).request = request := rfl

@[simp] theorem State.ofPorts_ports (request : OperandWord) (f : (op : Operation) → op.Ports) :
    (State.ofPorts request f).ports = f := by
  funext op
  cases op <;> rfl

@[simp] theorem State.setPorts_request (op : Operation) (p : op.Ports) (s : State) :
    (s.setPorts op p).request = s.request := rfl

@[simp] theorem State.setPorts_ports (op : Operation) (p : op.Ports) (s : State) :
    (s.setPorts op p).ports = Function.update s.ports op p :=
  State.ofPorts_ports _ _

theorem State.response_eq_result (s : State) (op : Operation) : s.response op = (s.ports op).result := by
  cases op <;> rfl

theorem State.response_setPorts_self (op : Operation) (p : op.Ports) (s : State) :
    (s.setPorts op p).response op = p.result := by
  rw [State.response_eq_result, State.setPorts_ports, Function.update_self]

theorem State.response_setPorts_of_ne {op op' : Operation} (h : op' ≠ op) (p : op.Ports) (s : State) :
    (s.setPorts op p).response op' = s.response op' := by
  rw [State.response_eq_result, State.setPorts_ports, Function.update_of_ne h, State.response_eq_result]

theorem State.setPorts_idem (op : Operation) (p : op.Ports) (s : State) :
    (s.setPorts op p).setPorts op p = s.setPorts op p := by
  simp only [State.setPorts, State.ofPorts_request, State.ofPorts_ports, Function.update_idem]

theorem State.setPorts_comm {op op' : Operation} (h : op ≠ op') (p : op.Ports) (p' : op'.Ports) (s : State) :
    (s.setPorts op p).setPorts op' p' = (s.setPorts op' p').setPorts op p := by
  simp only [State.setPorts, State.ofPorts_request, State.ofPorts_ports, Function.update_comm h]

/-! ## Evaluations and steps -/

/-- An evaluation completes, and writes the ports of its own unit (R33, R92). -/
theorem exec_eq_setPorts (i : Instr) (s : State) : exec i s = .next (s.setPorts i.operation i.ports) := by
  cases i with
  | rotl32 k x => rw [exec_rotl32]; rfl
  | rotl64 k x => rw [exec_rotl64]; rfl
  | updateHash p v => rw [exec_updateHash]; rfl
  | combine a b => rw [exec_combine]; rfl
  | derive a b => rw [exec_derive]; rfl

theorem exec_eq_next_iff (i : Instr) (s t : State) : exec i s = .next t ↔ t = s.setPorts i.operation i.ports := by
  rw [exec_eq_setPorts, Host.Outcome.next.injEq, eq_comm]

theorem exec_exec {i : Instr} {s t : State} (h : exec i s = .next t) : exec i t = .next t := by
  rw [exec_eq_next_iff] at h ⊢
  rw [h, State.setPorts_idem]

theorem request_of_exec {i : Instr} {s t : State} (h : exec i s = .next t) : t.request = s.request := by
  rw [(exec_eq_next_iff i s t).mp h, State.setPorts_request]

/-- The step leaves the request on the lines (R108, log 3), so a further step is the same evaluation again. -/
theorem step_step {s t : State} (h : step s = .next t) : step t = .next t := by
  rw [step_eq] at h ⊢
  rw [request_of_exec h]
  exact exec_exec h

/-! ## The obligations -/

/-- Settles O11: the ports an evaluation writes are a function of the request, and updates at different operations leave
each other standing and commute. -/
theorem responseDependsOnItsRequestAlone : Obligations.ResponseDependsOnItsRequestAlone := by
  refine ⟨?sameRequest, ?otherOperation, ?eitherOrder⟩
  case sameRequest =>
    intro i s s' t t' h h'
    rw [exec_eq_next_iff] at h h'
    rw [h, h', State.response_setPorts_self, State.response_setPorts_self]
  case otherOperation =>
    intro i j s t hne h
    rw [(exec_eq_next_iff j s t).mp h, State.response_setPorts_of_ne hne]
  case eitherOrder =>
    intro i j s t u t' u' hne hi hij hj hji
    rw [exec_eq_next_iff] at hi hij hj hji
    rw [hij, hi, hji, hj, State.setPorts_comm hne]

/-- Settles O12: the second evaluation writes what already stands on the ports, and the second step finds the same
request. -/
theorem evaluatingAgainChangesNothing : Obligations.EvaluatingAgainChangesNothing :=
  ⟨fun _ _ _ h => exec_exec h, fun _ _ h => step_step h⟩

end Sys2Proof.Machine
end

