-- ==== Sys2Proof/Proofs/Encoding.lean ====
section
/-!
PROOFS. Operand words and evaluations (R39 to R47). Decoding and encoding are inverse on the words of every format; a
raw number below 2 to the width is an operand word, and the decoder rejects every other. The statements about single words,
about table words and about the one result of each word are read off from that.
-/

namespace Sys2Proof

/-! ## Evaluations and operand words -/

@[simp] theorem decode_encode (i : Instr) : decode (encode i) = i := by
  cases i with
  | rotl32 k x => exact congrArg₂ Instr.rotl32 (extract_append_high k x) (extract_append_low k x)
  | rotl64 k x => exact congrArg₂ Instr.rotl64 (extract_append_high k x) (extract_append_low k x)
  | updateHash p v => exact congrArg₂ Instr.updateHash (extract_append_high p v) (extract_append_low p v)
  | combine a b => exact congrArg₂ Instr.combine (extract_append_high a b) (extract_append_low a b)
  | derive a b => exact congrArg₂ Instr.derive (extract_append_high a b) (extract_append_low a b)

/-- The two fields of a format cover its word, so no bit of an operand word is ignored (R45, R47). -/
@[simp] theorem encode_decode (w : OperandWord) : encode (decode w) = w := by
  cases w with
  | rotl32 w => exact congrArg OperandWord.rotl32 (append_extract (a := 5) (b := 32) w)
  | rotl64 w => exact congrArg OperandWord.rotl64 (append_extract (a := 6) (b := 64) w)
  | updateHash w => exact congrArg OperandWord.updateHash (append_extract (a := 32) (b := 32) w)
  | combine w => exact congrArg OperandWord.combine (append_extract (a := 64) (b := 64) w)
  | derive w => exact congrArg OperandWord.derive (append_extract (a := 64) (b := 64) w)

@[simp] theorem operation_decode (w : OperandWord) : (decode w).operation = w.operation := by
  cases w <;> rfl

@[simp] theorem operation_encode (i : Instr) : (encode i).operation = i.operation := by
  cases i <;> rfl

/-! ## Operand words and raw numbers -/

@[simp] theorem OperandWord.operation_ofNat (op : Operation) (w : Nat) : (OperandWord.ofNat op w).operation = op := by
  cases op <;> rfl

@[simp] theorem OperandWord.ofNat_toNat (w : OperandWord) : OperandWord.ofNat w.operation w.toNat = w := by
  cases w <;> simp [OperandWord.ofNat, OperandWord.operation, OperandWord.toNat]

theorem OperandWord.toNat_ofNat_of_lt {op : Operation} {w : Nat} (h : w < 2 ^ op.width) :
    (OperandWord.ofNat op w).toNat = w := by
  cases op <;> exact Nat.mod_eq_of_lt h

/-- The families of EncodingFits, joined: an encoded evaluation is never too wide. -/
theorem encodeWord_lt (i : Instr) : encodeWord i < 2 ^ i.operation.width := by
  apply of_decide_eq_true
  cases i with
  | rotl32 k x => exact Laws.EncodingFits.rotl32 k x
  | rotl64 k x => exact Laws.EncodingFits.rotl64 k x
  | updateHash p v => exact Laws.EncodingFits.updateHash p v
  | combine a b => exact Laws.EncodingFits.combine a b
  | derive a b => exact Laws.EncodingFits.derive a b

/-! ## The decoder of raw numbers -/

theorem decodeWord_of_lt {op : Operation} {w : Nat} (h : w < 2 ^ op.width) :
    decodeWord op w = .ok (decode (OperandWord.ofNat op w)) :=
  if_pos (decide_eq_true h)

theorem decodeWord_of_le {op : Operation} {w : Nat} (h : 2 ^ op.width ≤ w) :
    decodeWord op w = .error (.wordTooWide op) :=
  if_neg fun hadmits => h.not_gt (of_decide_eq_true hadmits)

theorem decodeWord_encodeWord (i : Instr) : decodeWord i.operation (encodeWord i) = .ok i := by
  rw [decodeWord_of_lt (encodeWord_lt i), encodeWord, ← operation_encode, OperandWord.ofNat_toNat, decode_encode]

/-- The numbers that decode are exactly the encodings, each of the evaluation it decodes to. -/
theorem decodeWord_eq_ok_iff {op : Operation} {w : Nat} {i : Instr} :
    decodeWord op w = .ok i ↔ i.operation = op ∧ encodeWord i = w := by
  constructor
  · intro h
    rcases lt_or_ge w (2 ^ op.width) with hlt | hge
    · rw [decodeWord_of_lt hlt] at h
      cases h
      exact ⟨by rw [operation_decode, OperandWord.operation_ofNat],
        by rw [encodeWord, encode_decode, OperandWord.toNat_ofNat_of_lt hlt]⟩
    · rw [decodeWord_of_le hge] at h
      cases h
  · rintro ⟨rfl, rfl⟩
    exact decodeWord_encodeWord i

end Sys2Proof

namespace Sys2Proof.Machine

/-! ## Results and presenting -/

@[simp] theorem rotl32_zero (x : Word32) : rotl32 x 0 = x := if_pos rfl

@[simp] theorem rotl64_zero (x : Word64) : rotl64 x 0 = x := if_pos rfl

/-- The result word of an evaluation is the one its ports carry, whatever state it is evaluated in (R33, R39). -/
theorem response_of_exec {i : Instr} {s t : State} (h : exec i s = .next t) :
    t.response i.operation = i.ports.result := by
  rw [(exec_eq_next_iff i s t).mp h, State.response_setPorts_self]

/-- The step after presenting a request evaluates it (R107). -/
theorem step_present (i : Instr) (s : State) : step (s.present i) = exec i (s.present i) := by
  rw [step_eq, State.present_request, decode_encode]

/-- R47 for one operand word, given by the evaluation it encodes: the result it has in every state is the one in any. -/
theorem existsUnique_result_encodeWord (i : Instr) :
    ∃! r : Nat, ∀ s : State, ∃ (j : Instr) (t : State),
      decodeWord i.operation (encodeWord i) = .ok j ∧ j.operation = i.operation ∧ exec j s = .next t
        ∧ t.response i.operation = r := by
  refine ⟨i.ports.result, fun s => ?_, fun r hr => ?_⟩
  · have hexec := exec_eq_setPorts i s
    exact ⟨i, _, decodeWord_encodeWord i, rfl, hexec, response_of_exec hexec⟩
  · obtain ⟨j, t, hdecode, -, hexec, rfl⟩ := hr State.reset
    rw [decodeWord_encodeWord] at hdecode
    cases hdecode
    exact response_of_exec hexec

/-! ## The obligations -/

/-- Settles O4: the number fits its word, so nothing is cut off, and each field is extracted from where it was put. -/
theorem decodeEncodeAgree : Obligations.DecodeEncodeAgree :=
  fun i => ⟨decodeWord_encodeWord i, decode_encode i⟩

/-- Settles O5: a word is the concatenation of its two fields. -/
theorem encodeDecodeAgree : Obligations.EncodeDecodeAgree :=
  ⟨fun _ _ _ h => decodeWord_eq_ok_iff.mp h, encode_decode⟩

/-- Settles O6: a number below the width is the encoding of an evaluation, whose result is a function of its operands
alone; a rotate by 0 is the identity (R56). -/
theorem everyOperandWordHasOneResult : Obligations.EveryOperandWordHasOneResult := by
  refine ⟨?oneResult, ?tooWide, ⟨rfl, rfl, rfl, rfl, rfl⟩, ?rotl32ByZero, ?rotl64ByZero⟩
  case oneResult =>
    intro op w hw
    obtain ⟨i, hi⟩ : ∃ i, decodeWord op w = .ok i := ⟨_, decodeWord_of_lt hw⟩
    obtain ⟨rfl, rfl⟩ := decodeWord_eq_ok_iff.mp hi
    exact existsUnique_result_encodeWord i
  case tooWide => exact fun _ _ hw => decodeWord_of_le hw
  case rotl32ByZero => exact fun x s => ⟨_, exec_rotl32 0 x s, rotl32_zero x⟩
  case rotl64ByZero => exact fun x s => ⟨_, exec_rotl64 0 x s, rotl64_zero x⟩

/-- Settles O2: withFetchWord is presenting, and the word presented decodes to the evaluation it encodes. -/
theorem tableWordIsPresentedAndRun : Obligations.TableWordIsPresentedAndRun := by
  refine ⟨?presents, ?leaves⟩
  case presents =>
    intro s nbits w i h
    have hpresent : s.withFetchWord nbits w = s.present i := by rw [State.withFetchWord_eq, h]; rfl
    rw [hpresent]
    exact ⟨rfl, step_present i s⟩
  case leaves =>
    intro s nbits w h
    rw [State.withFetchWord_eq, h]
    rfl

/-- Settles O3: each of the five words is the number its evaluation encodes to. -/
theorem writtenOperandWordsDecode : Obligations.WrittenOperandWordsDecode := by
  refine ⟨?_, ?_, ?_, ?_, ?_⟩ <;> exact decodeWord_eq_ok_iff.mpr (by decide)

end Sys2Proof.Machine
end

