-- ==== Sys2Proof/Proofs/StreamIterator.lean ====
section
/-!
PROOFS. The host's iterator (R49 to R52). Every NEXT completes, and its output and the host's advance depend on the
iterator alone; so a run of any length gives the outputs along the iterates of one function on iterators. Each strategy
then needs only the closed form of its own iterates.
-/

namespace Sys2Proof.Machine

/-! ## NEXT and runs, for every strategy -/

/-- The output NEXT returns (R49). -/
def StreamIterator.output (it : StreamIterator) : Word32 :=
  derive it.curSelector it.curIndex

/-- The iterator NEXT leaves (R49). -/
def StreamIterator.advanced (it : StreamIterator) : StreamIterator :=
  it.advance it.output

/-- The state NEXT leaves: the request on the lines, and the block's ports settled on it (R49, R108). -/
def StreamIterator.served (it : StreamIterator) (s : State) : State :=
  (s.present (.derive it.curSelector it.curIndex)).setDerive
    { selector := it.curSelector, index := it.curIndex, value := it.output }

theorem StreamIterator.exec_derive_eq_served (it : StreamIterator) (s : State) :
    exec (.derive it.curSelector it.curIndex) (s.present (.derive it.curSelector it.curIndex))
      = .next (it.served s) :=
  exec_derive _ _ _

theorem StreamIterator.next_eq (it : StreamIterator) (s : State) :
    it.next s = .next (it.output, it.advanced, it.served s) := by
  rw [StreamIterator.next, step_present, StreamIterator.exec_derive_eq_served]
  rfl

theorem StreamIterator.run_succ {n : Nat} {it it' : StreamIterator} {s t : State} {outs : List Word32}
    (h : StreamIterator.run n it.advanced (it.served s) = .next (outs, it', t)) :
    StreamIterator.run (n + 1) it s = .next (it.output :: outs, it', t) := by
  rw [StreamIterator.run, StreamIterator.next_eq]
  simp only [h]

/-- A run gives the outputs along the iterates of the advance, whatever stood on the ports before (R107). -/
theorem StreamIterator.run_eq_iterate (length : Nat) (it : StreamIterator) (s : State) :
    ∃ t : State, StreamIterator.run length it s
      = .next ((List.range length).map fun n => (StreamIterator.advanced^[n] it).output,
          StreamIterator.advanced^[length] it, t) := by
  induction length generalizing it s with
  | zero => exact ⟨s, rfl⟩
  | succ n ih =>
    obtain ⟨t, ht⟩ := ih it.advanced (it.served s)
    refine ⟨t, ?_⟩
    rw [StreamIterator.run_succ ht, List.range_succ_eq_map, List.map_cons, List.map_map]
    rfl

/-- A run along a known sequence of iterators gives their outputs, and ends at the last of them. -/
theorem StreamIterator.run_of_iterates {it : StreamIterator} {f : Nat → StreamIterator}
    (hf : ∀ n, StreamIterator.advanced^[n] it = f n) (length : Nat) (s : State) :
    ∃ t : State, StreamIterator.run length it s
      = .next ((List.range length).map fun n => (f n).output, f length, t) := by
  obtain ⟨t, ht⟩ := StreamIterator.run_eq_iterate length it s
  simp only [hf] at ht
  exact ⟨t, ht⟩

/-! ## The iterates of each strategy -/

/-- R50: the index counts up. -/
theorem StreamIterator.iterate_sequential (seed phase : Word64) (n : Nat) :
    StreamIterator.advanced^[n] (.start .sequential seed phase)
      = { strategy := .sequential, curSelector := seed, curIndex := phase + BitVec.ofNat 64 n } := by
  induction n with
  | zero => simp [StreamIterator.start]
  | succ n ih =>
    rw [Function.iterate_succ_apply', ih, BitVec.ofNat_add, ← BitVec.add_assoc]
    rfl

/-- R51: the selector counts down. -/
theorem StreamIterator.iterate_swapped (seed phase : Word64) (n : Nat) :
    StreamIterator.advanced^[n] (.start .swapped seed phase)
      = { strategy := .swapped, curSelector := phase - BitVec.ofNat 64 n, curIndex := seed } := by
  induction n with
  | zero => simp [StreamIterator.start]
  | succ n ih =>
    rw [Function.iterate_succ_apply', ih, BitVec.ofNat_add, ← BitVec.sub_sub]
    rfl

/-- R52: the pair follows the recurrence. -/
theorem StreamIterator.iterate_feedback (seed phase : Word64) (n : Nat) :
    StreamIterator.advanced^[n] (.start .feedback seed phase)
      = { strategy := .feedback, curSelector := (Reference.feedbackPair seed phase n).1,
          curIndex := (Reference.feedbackPair seed phase n).2 } := by
  induction n with
  | zero => rfl
  | succ n ih =>
    rw [Function.iterate_succ_apply', ih]
    rfl

/-! ## The feedback pair as a shift register -/

/-- Shifting a word up by half its width and entering 32 bits below puts its low half above them (R52). -/
theorem shl_or_setWidth_eq_append (a : Word64) (low : Word32) :
    (a <<< 32) ||| low.setWidth 64 = a.extractLsb' 0 32 ++ low := by
  calc (a <<< 32) ||| low.setWidth 64
      = (a ++ low).setWidth 64 := by rw [BitVec.setWidth_append_eq_shiftLeft_setWidth_or, BitVec.setWidth_eq]
    _ = a.setWidth 32 ++ low.setWidth 32 := BitVec.setWidth_append_of_eq (v' := 32) (w' := 32) rfl
    _ = a.extractLsb' 0 32 ++ low := by rw [BitVec.setWidth_eq, BitVec.setWidth_eq_extractLsb' (by decide)]

theorem ushiftRight_eq_setWidth_high (b : Word64) : b >>> 32 = (b.extractLsb' 32 32).setWidth 64 := by
  apply BitVec.eq_of_getLsbD_eq
  intro j hj
  by_cases h : j < 32
  · simp [h, hj]
  · simp [h, show 64 ≤ 32 + j by omega]

/-- Both shifts of R52 as concatenations of halves: the pair moves up by 32 bits, the output enters at the bottom. -/
theorem StreamIterator.advance_feedback (a b : Word64) (out : Word32) :
    StreamIterator.advance { strategy := .feedback, curSelector := a, curIndex := b } out
      = { strategy := .feedback, curSelector := a.extractLsb' 0 32 ++ b.extractLsb' 32 32,
          curIndex := b.extractLsb' 0 32 ++ out } := by
  rw [← shl_or_setWidth_eq_append, ← shl_or_setWidth_eq_append, ← ushiftRight_eq_setWidth_high]
  rfl

/-- Four outputs shift the whole pair out, 32 bits each. -/
theorem StreamIterator.advance_feedback_four (a b : Word64) (o0 o1 o2 o3 : Word32) :
    ((((StreamIterator.mk .feedback a b).advance o0).advance o1).advance o2).advance o3
      = { strategy := .feedback, curSelector := o0 ++ o1, curIndex := o2 ++ o3 } := by
  simp only [StreamIterator.advance_feedback, extract_append_high, extract_append_low]

/-- Cutting the middle word of a concatenation into its halves changes nothing. -/
theorem append_halves_append (x y : Word32) (b : Word64) :
    (x ++ b.extractLsb' 32 32) ++ (b.extractLsb' 0 32 ++ y) = x ++ b ++ y := by
  have hb : b.extractLsb' 32 32 ++ b.extractLsb' 0 32 = b := append_extract (a := 32) (b := 32) b
  calc (x ++ b.extractLsb' 32 32) ++ (b.extractLsb' 0 32 ++ y)
      = x ++ b.extractLsb' 32 32 ++ b.extractLsb' 0 32 ++ y := BitVec.append_assoc'
    _ = x ++ (b.extractLsb' 32 32 ++ b.extractLsb' 0 32) ++ y := congrArg (· ++ y) BitVec.append_assoc
    _ = x ++ b ++ y := by rw [hb]

/-! ## The obligations -/

/-- Settles O35: the step after presenting DERIVE on the pair evaluates it, and the host advances with its value. -/
theorem nextEvaluatesThenAdvances : Obligations.NextEvaluatesThenAdvances := by
  refine ⟨?next, rfl, rfl, rfl, ?unknownCode⟩
  case next => exact fun it s => ⟨it.served s, it.exec_derive_eq_served s, rfl, it.next_eq s⟩
  case unknownCode => exact fun | n + 3, _ => rfl

/-- Settles O36: the closed form of the sequential iterates; the index is a 64-bit pattern, so nothing happens at its
top bit. -/
theorem sequentialOutputs : Obligations.SequentialOutputs := by
  refine ⟨?outputs, ?pastTheSignBit⟩
  case outputs =>
    intro seed phase length s
    obtain ⟨t, ht⟩ := StreamIterator.run_of_iterates (StreamIterator.iterate_sequential seed phase) length s
    exact ⟨t, ht⟩
  case pastTheSignBit =>
    have hwrap : (0x7FFFFFFFFFFFFFFF : Word64) + 1 = 0x8000000000000000#64 := by decide
    exact fun _ _ => hwrap

/-- Settles O37: the closed form of the swapped iterates. -/
theorem swappedOutputs : Obligations.SwappedOutputs := by
  intro seed phase length s
  obtain ⟨t, ht⟩ := StreamIterator.run_of_iterates (StreamIterator.iterate_swapped seed phase) length s
  exact ⟨t, ht⟩

/-- Settles O38: the feedback iterates are the recurrence; shifting 128 bits at once is shifting both halves. -/
theorem feedbackOutputs : Obligations.FeedbackOutputs := by
  refine ⟨?outputs, ?shiftRegister⟩
  case outputs =>
    intro seed phase length s
    obtain ⟨t, ht⟩ := StreamIterator.run_of_iterates (StreamIterator.iterate_feedback seed phase) length s
    exact ⟨t, ht⟩
  case shiftRegister =>
    intro a b out
    simp only [StreamIterator.advance_feedback]
    exact append_halves_append _ _ _

/-- Settles O39: after four advances nothing of the start is left in the pair. -/
theorem fourFeedbackOutputsAreThePair : Obligations.FourFeedbackOutputsAreThePair := by
  intro seed phase s
  obtain ⟨t, ht⟩ := StreamIterator.run_eq_iterate 4 (.start .feedback seed phase) s
  have hpair : StreamIterator.advanced^[4] (.start .feedback seed phase) = _ :=
    StreamIterator.advance_feedback_four seed phase _ _ _ _
  rw [hpair] at ht
  exact ⟨_, _, _, _, t, ht⟩

end Sys2Proof.Machine
end

