-- ==== Sys2Proof/Proofs/BitRotate.lean ====
section
/-!
PROOFS. BitRotate (R54 to R58). Every law is proved once, for the library's left-rotate at an arbitrary width, most of
them from one fact: which word a rotated word is, said bit by bit (eq_rotateLeft_iff). The two widths of the unit are
instances through rotl32_eq_rotateLeft and rotl64_eq_rotateLeft.
-/

namespace Sys2Proof

/-! ## Left-rotates of words of any width -/

section Rotate

variable {w k j : Nat}

/-- Where operand bit j goes, for every amount. -/
theorem getLsbD_rotateLeft_add_mod (x : BitVec w) (k : Nat) (hj : j < w) :
    (x.rotateLeft k).getLsbD ((j + k) % w) = x.getLsbD j := by
  rw [BitVec.getLsbD_rotateLeft, ← Nat.add_mod_mod]
  have hr : k % w < w := Nat.mod_lt _ (by omega)
  generalize k % w = r at hr ⊢
  by_cases hwrap : j + r < w
  · simp [Nat.mod_eq_of_lt hwrap, hwrap]
  · have hmod : (j + r) % w = j + r - w := by
      rw [Nat.mod_eq_sub_mod (by omega), Nat.mod_eq_of_lt (by omega)]
    simp [hmod, show j + r - w < r by omega, show w - r + (j + r - w) = j by omega]

/-- The bit that an amount sends to bit j. -/
theorem add_sub_mod_add_mod (hk : k ≤ w) (hj : j < w) : ((j + w - k) % w + k) % w = j := by
  rw [Nat.mod_add_mod, Nat.sub_add_cancel (by omega), Nat.add_mod_right, Nat.mod_eq_of_lt hj]

/-- Where result bit j comes from, for the amounts a rotate has. -/
theorem getLsbD_rotateLeft_eq_mod (x : BitVec w) (hk : k ≤ w) (hj : j < w) :
    (x.rotateLeft k).getLsbD j = x.getLsbD ((j + w - k) % w) := by
  have hbit := getLsbD_rotateLeft_add_mod x k (Nat.mod_lt (j + w - k) (by omega : 0 < w))
  rwa [add_sub_mod_add_mod hk hj] at hbit

/-- The bit law determines the rotated word, because every bit of it comes from somewhere. -/
theorem eq_rotateLeft_iff {x y : BitVec w} :
    y = x.rotateLeft k ↔ ∀ j < w, y.getLsbD ((j + k) % w) = x.getLsbD j := by
  constructor
  · rintro rfl j hj
    exact getLsbD_rotateLeft_add_mod x k hj
  · intro h
    apply BitVec.eq_of_getLsbD_eq
    intro j hj
    have hw : 0 < w := by omega
    have hfrom := add_sub_mod_add_mod (Nat.mod_lt k hw).le hj
    rw [Nat.add_mod_mod] at hfrom
    have hlt : (j + w - k % w) % w < w := Nat.mod_lt _ hw
    rw [← hfrom, h _ hlt, getLsbD_rotateLeft_add_mod x k hlt]

theorem rotateLeft_zero (x : BitVec w) : x.rotateLeft 0 = x :=
  (eq_rotateLeft_iff.mpr fun j hj => by rw [Nat.add_zero, Nat.mod_eq_of_lt hj]).symm

theorem rotateLeft_width (x : BitVec w) : x.rotateLeft w = x := by
  rw [← BitVec.rotateLeft_mod_eq_rotateLeft, Nat.mod_self, rotateLeft_zero]

/-- R58 (a): the bit moves on by the one amount and then by the other. -/
theorem rotateLeft_rotateLeft (x : BitVec w) (k l : Nat) : (x.rotateLeft k).rotateLeft l = x.rotateLeft (k + l) := by
  refine eq_rotateLeft_iff.mpr fun j hj => ?_
  have hw : 0 < w := by omega
  rw [← Nat.add_assoc, ← Nat.mod_add_mod, getLsbD_rotateLeft_add_mod _ l (Nat.mod_lt _ hw),
    getLsbD_rotateLeft_add_mod x k hj]

/-- R58 (b): an amount and its complement make a whole turn. -/
theorem rotateLeft_complement (x : BitVec w) (hk : k ≤ w) : (x.rotateLeft k).rotateLeft (w - k) = x := by
  rw [rotateLeft_rotateLeft, Nat.add_sub_cancel' hk, rotateLeft_width]

theorem complement_rotateLeft (x : BitVec w) (hk : k ≤ w) : (x.rotateLeft (w - k)).rotateLeft k = x := by
  rw [rotateLeft_rotateLeft, Nat.sub_add_cancel hk, rotateLeft_width]

/-- R58 (c): the bits are read in a rotated order. -/
theorem oneBits_rotateLeft (x : BitVec w) (k : Nat) : Reference.oneBits (x.rotateLeft k) = Reference.oneBits x := by
  have horder : (List.range w).map (fun j => (j + k) % w) = (List.range w).rotate k :=
    List.ext_getElem (by simp) fun j _ _ => by simp [List.getElem_rotate]
  calc (List.range w).countP (fun j => (x.rotateLeft k).getLsbD j)
      = ((List.range w).rotate k).countP fun j => (x.rotateLeft k).getLsbD j :=
        ((List.range w).rotate_perm k).symm.countP_eq _
    _ = (List.range w).countP fun j => (x.rotateLeft k).getLsbD ((j + k) % w) := by
        rw [← horder, List.countP_map]
        rfl
    _ = (List.range w).countP fun j => x.getLsbD j :=
        List.countP_congr fun j hj => by rw [getLsbD_rotateLeft_add_mod x k (List.mem_range.mp hj)]

/-! R58 (d): a bitwise operation acts on each bit, wherever it stands. -/

theorem rotateLeft_xor (a b : BitVec w) (k : Nat) : (a ^^^ b).rotateLeft k = a.rotateLeft k ^^^ b.rotateLeft k :=
  (eq_rotateLeft_iff.mpr fun j hj => by simp only [BitVec.getLsbD_xor, getLsbD_rotateLeft_add_mod _ k hj]).symm

theorem rotateLeft_and (a b : BitVec w) (k : Nat) : (a &&& b).rotateLeft k = a.rotateLeft k &&& b.rotateLeft k :=
  (eq_rotateLeft_iff.mpr fun j hj => by simp only [BitVec.getLsbD_and, getLsbD_rotateLeft_add_mod _ k hj]).symm

theorem rotateLeft_or (a b : BitVec w) (k : Nat) : (a ||| b).rotateLeft k = a.rotateLeft k ||| b.rotateLeft k :=
  (eq_rotateLeft_iff.mpr fun j hj => by simp only [BitVec.getLsbD_or, getLsbD_rotateLeft_add_mod _ k hj]).symm

theorem rotateLeft_not (a : BitVec w) (k : Nat) : (~~~a).rotateLeft k = ~~~(a.rotateLeft k) := by
  refine (eq_rotateLeft_iff.mpr fun j hj => ?_).symm
  have hlt : (j + k) % w < w := Nat.mod_lt _ (by omega)
  simp only [BitVec.getLsbD_not, hlt, hj, getLsbD_rotateLeft_add_mod _ k hj]

theorem zero_rotateLeft (k : Nat) : (0#w).rotateLeft k = 0#w :=
  (eq_rotateLeft_iff.mpr fun _ _ => by simp only [BitVec.getLsbD_zero]).symm

theorem allOnes_rotateLeft (k : Nat) : (BitVec.allOnes w).rotateLeft k = BitVec.allOnes w := by
  rw [← BitVec.not_zero, rotateLeft_not, zero_rotateLeft]

/-- A left-rotate is the right-rotate by the complementary amount: both join the same two shifts. -/
theorem rotateLeft_eq_rotateRight (x : BitVec w) (hpos : 0 < k) (hk : k < w) :
    x.rotateLeft k = x.rotateRight (w - k) := by
  rw [BitVec.rotateLeft_def, BitVec.rotateRight_def, Nat.mod_eq_of_lt hk, Nat.mod_eq_of_lt (by omega),
    Nat.sub_sub_self hk.le, BitVec.or_comm]

/-! ## The two shifts of a rotate -/

/-- The two parts never overlap: the one holds the bits from k on, the other those below. -/
theorem shl_and_ushr_complement (x : BitVec w) (hk : k ≤ w) : (x <<< k) &&& (x >>> (w - k)) = 0#w := by
  apply BitVec.eq_of_getLsbD_eq
  intro j _
  by_cases h : j < k
  · simp [h]
  · simp [BitVec.getLsbD_of_ge x (w - k + j) (by omega)]

theorem or_eq_xor_of_and_eq_zero {x y : BitVec w} (h : x &&& y = 0#w) : x ||| y = x ^^^ y := by
  apply BitVec.eq_of_getLsbD_eq
  intro j _
  have hbit : (x.getLsbD j && y.getLsbD j) = false := by rw [← BitVec.getLsbD_and, h, BitVec.getLsbD_zero]
  have hbool : ∀ p q : Bool, (p && q) = false → (p || q) = (p ^^ q) := by decide
  rw [BitVec.getLsbD_or, BitVec.getLsbD_xor, hbool _ _ hbit]

end Rotate

end Sys2Proof

namespace Sys2Proof.Machine

/-! ## The two widths of the unit -/

/-- An amount is a number modulo the width (R57). -/
theorem rotl32_ofNat (x : Word32) (n : Nat) : rotl32 x (BitVec.ofNat 5 (n % 32)) = x.rotateLeft n := by
  rw [rotl32_eq_rotateLeft, BitVec.toNat_ofNat, Nat.mod_mod, BitVec.rotateLeft_mod_eq_rotateLeft]

theorem rotl64_ofNat (x : Word64) (n : Nat) : rotl64 x (BitVec.ofNat 6 (n % 64)) = x.rotateLeft n := by
  rw [rotl64_eq_rotateLeft, BitVec.toNat_ofNat, Nat.mod_mod, BitVec.rotateLeft_mod_eq_rotateLeft]

theorem rotl32_complement (x : Word32) (k : Amount32) :
    rotl32 (rotl32 x k) (BitVec.ofNat 5 ((32 - k.toNat) % 32)) = x := by
  rw [rotl32_ofNat, rotl32_eq_rotateLeft, rotateLeft_complement x k.isLt.le]

theorem complement_rotl32 (x : Word32) (k : Amount32) :
    rotl32 (rotl32 x (BitVec.ofNat 5 ((32 - k.toNat) % 32))) k = x := by
  rw [rotl32_ofNat, rotl32_eq_rotateLeft, complement_rotateLeft x k.isLt.le]

theorem rotl64_complement (x : Word64) (k : Amount64) :
    rotl64 (rotl64 x k) (BitVec.ofNat 6 ((64 - k.toNat) % 64)) = x := by
  rw [rotl64_ofNat, rotl64_eq_rotateLeft, rotateLeft_complement x k.isLt.le]

theorem complement_rotl64 (x : Word64) (k : Amount64) :
    rotl64 (rotl64 x (BitVec.ofNat 6 ((64 - k.toNat) % 64))) k = x := by
  rw [rotl64_ofNat, rotl64_eq_rotateLeft, complement_rotateLeft x k.isLt.le]

/-- R55, k = 32: the halves change places. -/
theorem rotateLeft_32_eq_swap (x : Word64) : x.rotateLeft 32 = x.extractLsb' 0 32 ++ x.extractLsb' 32 32 := by
  rw [← shl_or_setWidth_eq_append, ← ushiftRight_eq_setWidth_high]
  exact BitVec.rotateLeft_def

/-! ## The obligations -/

/-- Settles O14: the unit is the library's left-rotate, and its two parts do not overlap. -/
theorem rotl32RotatesLeft : Obligations.Rotl32RotatesLeft := by
  have hexample : rotl32 0xdeadbeef 4 = 0xeadbeefd#32 := by decide
  refine ⟨fun k x s => ⟨_, exec_rotl32 k x s, rfl, rfl, ?_⟩, fun s => ⟨_, exec_rotl32 _ _ s, hexample⟩⟩
  have hk : k.toNat < 32 := k.isLt
  rw [State.setRotl32_rotl32, rotl32_eq_rotateLeft]
  refine ⟨?forwards, ?backwards, ?by31, ?zero, ?ones, ?parts⟩
  case forwards => exact fun j hj => getLsbD_rotateLeft_add_mod x _ hj
  case backwards => exact fun j hj => getLsbD_rotateLeft_eq_mod x hk.le hj
  case by31 => rintro rfl; exact rotateLeft_eq_rotateRight x (by decide) hk
  case zero => rintro rfl; exact zero_rotateLeft _
  case ones => rintro rfl; exact allOnes_rotateLeft (w := 32) _
  case parts =>
    intro _
    have hdisjoint := shl_and_ushr_complement x hk.le
    rw [BitVec.rotateLeft_def, Nat.mod_eq_of_lt hk]
    exact ⟨hdisjoint, or_eq_xor_of_and_eq_zero hdisjoint, (BitVec.add_eq_or_of_and_eq_zero _ _ hdisjoint).symm⟩

/-- Settles O15: the same at width 64, where amount 32 exchanges the halves. -/
theorem rotl64RotatesLeft : Obligations.Rotl64RotatesLeft := by
  have hexample : rotl64 0x0123456789abcdef 4 = 0x123456789abcdef0#64 := by decide
  refine ⟨fun k x s => ⟨_, exec_rotl64 k x s, rfl, rfl, ?_⟩, fun s => ⟨_, exec_rotl64 _ _ s, hexample⟩⟩
  have hk : k.toNat < 64 := k.isLt
  rw [State.setRotl64_rotl64, rotl64_eq_rotateLeft]
  refine ⟨?forwards, ?backwards, ?by32, ?by63, ?zero, ?ones⟩
  case forwards => exact fun j hj => getLsbD_rotateLeft_add_mod x _ hj
  case backwards => exact fun j hj => getLsbD_rotateLeft_eq_mod x hk.le hj
  case by32 => rintro rfl; exact rotateLeft_32_eq_swap x
  case by63 => rintro rfl; exact rotateLeft_eq_rotateRight x (by decide) hk
  case zero => rintro rfl; exact zero_rotateLeft _
  case ones => rintro rfl; exact allOnes_rotateLeft (w := 64) _

/-- Settles O16: previous hash 0x11 and the pair 0, 9 give the callers' amounts of 0 (HV10, DV16). -/
theorem rotateByZeroIsTheIdentity : Obligations.RotateByZeroIsTheIdentity := by
  refine ⟨?rotl32, ?rotl64, ?shifts32, ?shifts64, ?mixer, ?extract⟩
  case rotl32 => exact fun x s => ⟨_, exec_rotl32 0 x s, rotl32_zero x⟩
  case rotl64 => exact fun x s => ⟨_, exec_rotl64 0 x s, rotl64_zero x⟩
  case shifts32 =>
    intro x
    have hout : x >>> 32 = 0 := BitVec.ushiftRight_eq_zero le_rfl
    exact ⟨BitVec.shiftLeft_zero x, hout, by rw [hout, BitVec.shiftLeft_zero]; exact BitVec.or_zero⟩
  case shifts64 =>
    intro x
    have hout : x >>> 64 = 0 := BitVec.ushiftRight_eq_zero le_rfl
    exact ⟨BitVec.shiftLeft_zero x, hout, by rw [hout, BitVec.shiftLeft_zero]; exact BitVec.or_zero⟩
  case mixer =>
    refine ⟨0x00000011, fun v => ?_⟩
    rw [mixerWires_r, mixerWires_t1]
    decide
  case extract => exact ⟨0, 9, by decide⟩

/-- Settles O17: each law of the left-rotate at both widths; the low half of a word has its low bits. -/
theorem rotatesComposeInvertAndDistribute : Obligations.RotatesComposeInvertAndDistribute := by
  refine ⟨?compose32, ?compose64, ?invert32, ?invert64, ?count32, ?count64, ?distribute32, ?distribute64, ?lowHalf⟩
  case compose32 => intro x j k; rw [rotl32_ofNat, rotl32_eq_rotateLeft, rotl32_eq_rotateLeft, rotateLeft_rotateLeft]
  case compose64 => intro x j k; rw [rotl64_ofNat, rotl64_eq_rotateLeft, rotl64_eq_rotateLeft, rotateLeft_rotateLeft]
  case invert32 =>
    intro k
    exact ⟨Function.bijective_iff_has_inverse.mpr ⟨_, (rotl32_complement · k), (complement_rotl32 · k)⟩,
      fun x => ⟨rotl32_complement x k, complement_rotl32 x k⟩⟩
  case invert64 =>
    intro k
    exact ⟨Function.bijective_iff_has_inverse.mpr ⟨_, (rotl64_complement · k), (complement_rotl64 · k)⟩,
      fun x => ⟨rotl64_complement x k, complement_rotl64 x k⟩⟩
  case count32 => intro x k; rw [rotl32_eq_rotateLeft, oneBits_rotateLeft]
  case count64 => intro x k; rw [rotl64_eq_rotateLeft, oneBits_rotateLeft]
  case distribute32 =>
    intro a b k
    simp only [rotl32_eq_rotateLeft]
    exact ⟨rotateLeft_xor a b _, rotateLeft_and a b _, rotateLeft_or a b _, rotateLeft_not a _⟩
  case distribute64 =>
    intro a b k
    simp only [rotl64_eq_rotateLeft]
    exact ⟨rotateLeft_xor a b _, rotateLeft_and a b _, rotateLeft_or a b _, rotateLeft_not a _⟩
  case lowHalf =>
    intro x k j hj
    have hlow : ((rotl64 x k).setWidth 32).getLsbD j = (rotl64 x k).getLsbD j := by
      simp only [BitVec.getLsbD_setWidth, hj, decide_true, Bool.true_and]
    rw [hlow, rotl64_eq_rotateLeft, getLsbD_rotateLeft_eq_mod x k.isLt.le (by omega)]

end Sys2Proof.Machine
end

