-- ==== Sys2Proof/Proofs/HashMixer.lean ====
section
/-!
PROOFS. HashMixer (R60 to R70). The lines of UPDATE_HASH are of three kinds: a rotate, a multiplication by an odd
constant, and a word xored with itself shifted right. For each kind, at every width, it is said once what it is over
unbounded numbers and that it is injective, so on words of one width bijective; the statements about the wires follow
from the wire equations.
-/

namespace Sys2Proof

/-! ## Words of any width -/

section Lines

variable {w : Nat}

/-! R64: what the lines compute over unbounded numbers. -/

/-- The two shifts of a rotate do not overlap, so joining them is adding them. -/
theorem toNat_rotateLeft_eq_rotl (x : BitVec w) {k : Nat} (hk : k < w) :
    (x.rotateLeft k).toNat = Reference.rotl w x.toNat k := by
  have hdisjoint := shl_and_ushr_complement x hk.le
  rw [BitVec.rotateLeft_def, Nat.mod_eq_of_lt hk, ← BitVec.add_eq_or_of_and_eq_zero _ _ hdisjoint,
    BitVec.toNat_add_of_and_eq_zero hdisjoint, BitVec.toNat_shiftLeft, BitVec.toNat_ushiftRight,
    Nat.shiftLeft_eq, Nat.shiftRight_eq_div_pow, Reference.rotl]

theorem toNat_xor_ushiftRight (x : BitVec w) (n : Nat) : (x ^^^ (x >>> n)).toNat = x.toNat ^^^ (x.toNat / 2 ^ n) := by
  rw [BitVec.toNat_xor, BitVec.toNat_ushiftRight, Nat.shiftRight_eq_div_pow]

/-- A sum that is only multiplied needs no reduction of its own. -/
theorem toNat_add_mul (a b c : BitVec w) : ((a + b) * c).toNat = (a.toNat + b.toNat) * c.toNat % 2 ^ w := by
  rw [BitVec.toNat_mul, BitVec.toNat_add, Nat.mod_mul_mod]

/-! R70 (b): the lines as maps of words. -/

theorem bijective_of_injective {f : BitVec w → BitVec w} (hf : Function.Injective f) : Function.Bijective f :=
  have : Finite (BitVec w) := Finite.of_injective _ BitVec.toFin_injective
  Finite.injective_iff_bijective.mp hf

/-- An odd factor is coprime to 2^w, so it cancels. -/
theorem injective_mul_of_odd {c : BitVec w} (hc : Odd c.toNat) : Function.Injective fun v => v * c := by
  intro a b h
  have hmod : a.toNat * c.toNat ≡ b.toNat * c.toNat [MOD 2 ^ w] := by
    simpa only [Nat.ModEq, BitVec.toNat_mul] using congrArg BitVec.toNat h
  have hcoprime : Nat.Coprime (2 ^ w) c.toNat := (Nat.coprime_two_left.mpr hc).pow_left w
  exact BitVec.eq_of_toNat_eq ((hmod.cancel_right_of_coprime hcoprime).eq_of_lt_of_lt a.isLt b.isLt)

/-- Only 0 stays as it is when it is shifted right. -/
theorem eq_zero_of_eq_ushiftRight {d : BitVec w} {n : Nat} (hn : 1 ≤ n) (h : d = d >>> n) : d = 0#w := by
  apply BitVec.eq_of_toNat_eq
  by_contra hpos
  have hshift : d.toNat = d.toNat / 2 ^ n := by
    rw [← Nat.shiftRight_eq_div_pow, ← BitVec.toNat_ushiftRight, ← h]
  have hless : d.toNat / 2 ^ n < d.toNat :=
    Nat.div_lt_self (Nat.pos_of_ne_zero hpos) (Nat.one_lt_two_pow (by omega))
  omega

/-- The difference of two words with the same image stays as it is when it is shifted right. -/
theorem injective_xor_ushiftRight {n : Nat} (hn : 1 ≤ n) : Function.Injective fun v : BitVec w => v ^^^ (v >>> n) := by
  intro a b h
  have himage : (a ^^^ b) ^^^ ((a ^^^ b) >>> n) = 0#w := by
    calc (a ^^^ b) ^^^ ((a ^^^ b) >>> n)
        = (a ^^^ (a >>> n)) ^^^ (b ^^^ (b >>> n)) := by rw [BitVec.ushiftRight_xor_distrib]; ac_rfl
      _ = 0#w := BitVec.xor_eq_zero_iff.mpr h
  exact BitVec.xor_eq_zero_iff.mp (eq_zero_of_eq_ushiftRight hn (BitVec.xor_eq_zero_iff.mp himage))

end Lines

end Sys2Proof

namespace Sys2Proof.Machine

/-! ## The multipliers (R61) -/

theorem odd_mixC3 : Odd mixC3.toNat := by decide
theorem odd_mixC4 : Odd mixC4.toNat := by decide
theorem odd_mixC5 : Odd mixC5.toNat := by decide
theorem odd_mixC6 : Odd mixC6.toNat := by decide

/-! ## The wires over unbounded numbers -/

theorem rotl32_toNat (x : Word32) (k : Amount32) : (rotl32 x k).toNat = Reference.rotl 32 x.toNat k.toNat := by
  rw [rotl32_eq_rotateLeft, toNat_rotateLeft_eq_rotl x k.isLt]

/-- R60 line by line, each wire by the wires it is made of. -/
theorem updateHash_toNat (p v : Word32) : (updateHash p v).toNat = Reference.updateHash p.toNat v.toNat := by
  have hr : (mixerWires p v).r.toNat = (mixerWires p v).t1.toNat % 32 := BitVec.extractLsb'_toNat 0 5 _
  rw [updateHash_eq, mixerWires_t10, BitVec.toNat_mul, mixerWires_t9, toNat_xor_ushiftRight,
    mixerWires_t8, mixerWires_t7, toNat_add_mul, BitVec.toNat_ushiftRight, Nat.shiftRight_eq_div_pow,
    mixerWires_t6, toNat_xor_ushiftRight, mixerWires_t5, BitVec.toNat_mul, mixerWires_t4, toNat_xor_ushiftRight,
    mixerWires_t3, mixerWires_t2, toNat_add_mul, BitVec.toNat_xor, mixerWires_rv, rotl32_toNat, hr,
    mixerWires_t1, BitVec.toNat_xor]
  rfl

/-! ## The amount (R63) -/

/-- The low five bits of C1 are 0b10001. -/
theorem mixerWires_r_eq_xor (p v : Word32) : (mixerWires p v).r = p.extractLsb' 0 5 ^^^ 0b10001#5 := by
  rw [mixerWires_r, mixerWires_t1]
  exact BitVec.extractLsb'_xor

theorem mixerWires_r_eq_zero_iff (p v : Word32) : (mixerWires p v).r = 0 ↔ p.extractLsb' 0 5 = 0b10001#5 := by
  rw [mixerWires_r_eq_xor]
  exact BitVec.xor_eq_zero_iff

/-- R60, corner case: previous hash C1 is cancelled by line S1. -/
theorem mixerWires_t1_r_of_C1 (v : Word32) : (mixerWires 0x8addb2d1 v).t1 = 0 ∧ (mixerWires 0x8addb2d1 v).r = 0 :=
  ⟨BitVec.xor_self, (mixerWires_r_eq_zero_iff _ v).mpr (by decide)⟩

/-! ## The wires as functions of the value (R70 (b)) -/

theorem injective_rotl32 (k : Amount32) : Function.Injective fun x => rotl32 x k :=
  Function.LeftInverse.injective (g := fun y => rotl32 y (BitVec.ofNat 5 ((32 - k.toNat) % 32)))
    (rotl32_complement · k)

/-- Neither t1 nor the amount depends on the value, so t2 is a rotate, an xor and an addition of constants. -/
theorem injective_mixerWires_t2 (p : Word32) : Function.Injective fun v => (mixerWires p v).t2 := by
  intro a b h
  have hrv : (mixerWires p a).rv = (mixerWires p b).rv :=
    (BitVec.xor_right_inj mixC2).mp ((BitVec.add_right_inj (p ^^^ mixC1)).mp h)
  exact injective_rotl32 _ hrv

theorem injective_mixerWires_t3 (p : Word32) : Function.Injective fun v => (mixerWires p v).t3 :=
  (injective_mul_of_odd odd_mixC3).comp (injective_mixerWires_t2 p)

theorem injective_mixerWires_t4 (p : Word32) : Function.Injective fun v => (mixerWires p v).t4 :=
  (injective_xor_ushiftRight (n := 15) (by decide)).comp (injective_mixerWires_t3 p)

theorem injective_mixerWires_t5 (p : Word32) : Function.Injective fun v => (mixerWires p v).t5 :=
  (injective_mul_of_odd odd_mixC4).comp (injective_mixerWires_t4 p)

theorem injective_mixerWires_t6 (p : Word32) : Function.Injective fun v => (mixerWires p v).t6 :=
  (injective_xor_ushiftRight (n := 7) (by decide)).comp (injective_mixerWires_t5 p)

/-! After the addition of S6: each wire decides the one before it, for whatever operands. -/

section AfterTheAddition

variable (p v p' v' : Word32)

theorem mixerWires_t7_eq_iff_t8 :
    (mixerWires p v).t7 = (mixerWires p' v').t7 ↔ (mixerWires p v).t8 = (mixerWires p' v').t8 :=
  (injective_mul_of_odd odd_mixC5).eq_iff.symm

theorem mixerWires_t8_eq_iff_t9 :
    (mixerWires p v).t8 = (mixerWires p' v').t8 ↔ (mixerWires p v).t9 = (mixerWires p' v').t9 :=
  (injective_xor_ushiftRight (n := 16) (by decide)).eq_iff.symm

theorem mixerWires_t9_eq_iff_t10 :
    (mixerWires p v).t9 = (mixerWires p' v').t9 ↔ (mixerWires p v).t10 = (mixerWires p' v').t10 :=
  (injective_mul_of_odd odd_mixC6).eq_iff.symm

end AfterTheAddition

/-! ## The obligations -/

/-- Settles O18: the rotate and the other lines, each over unbounded numbers; the written-out vectors are evaluated. -/
theorem updateHashMatchesUnboundedArithmetic : Obligations.UpdateHashMatchesUnboundedArithmetic := by
  have hzero : updateHash 0 0 = 0x0900052d#32 := by decide
  have hones : updateHash 0xffffffff 0xffffffff = 0xbdb8bbb2#32 := by decide
  refine ⟨?refines, mixerWires_t1_r_of_C1, ?zeroOperands, ?workedExample, ?allOnes⟩
  case refines => exact fun p v s => ⟨_, exec_updateHash p v s, rfl, updateHash_toNat p v⟩
  case zeroOperands => exact fun s => ⟨_, exec_updateHash 0 0 s, hzero⟩
  case workedExample => decide
  case allOnes => exact fun s => ⟨_, exec_updateHash _ _ s, hones⟩

/-- Settles O19: the amount is the low five bits of the previous hash xored with 0b10001, a formula without the value;
an amount is reached from the previous hash that is that amount xored with 0b10001. -/
theorem mixerAmountComesFromThePreviousHash : Obligations.MixerAmountComesFromThePreviousHash := by
  refine ⟨?wires, ?noValue, ?everyAmount, mixerWires_t1_r_of_C1, ?example11⟩
  case wires =>
    intro p v
    have hidentity (hr : (mixerWires p v).r = 0) : (mixerWires p v).rv = v := by
      rw [mixerWires_rv, hr, rotl32_zero]
    exact ⟨mixerWires_t1 p v, mixerWires_r p v, mixerWires_r_eq_xor p v, mixerWires_rv p v,
      mixerWires_r_eq_zero_iff p v, hidentity⟩
  case noValue => intro p v v'; rw [mixerWires_r_eq_xor, mixerWires_r_eq_xor]
  case everyAmount =>
    intro a
    refine ⟨0#27 ++ (a ^^^ 0b10001#5), fun v => ?_⟩
    rw [mixerWires_r_eq_xor, extract_append_low, BitVec.xor_assoc, BitVec.xor_self, BitVec.xor_zero]
  case example11 => exact fun v => (mixerWires_r_eq_zero_iff _ v).mpr (by decide)

/-- Settles O21: every line but the addition of S6 is injective, and an injective map of the 32-bit words is a
bijection. -/
theorem mixerLinesAreBijective : Obligations.MixerLinesAreBijective := by
  refine ⟨?upToT6, ?fromT7, ?lines, ?byC3, ?byC4, ?byC5, ?byC6, ?shiftXor⟩
  case upToT6 =>
    exact fun p => ⟨bijective_of_injective (injective_mixerWires_t2 p),
      bijective_of_injective (injective_mixerWires_t3 p), bijective_of_injective (injective_mixerWires_t4 p),
      bijective_of_injective (injective_mixerWires_t5 p), bijective_of_injective (injective_mixerWires_t6 p)⟩
  case fromT7 =>
    intro p v p' v'
    have h8 := mixerWires_t7_eq_iff_t8 p v p' v'
    have h9 := h8.trans (mixerWires_t8_eq_iff_t9 p v p' v')
    exact ⟨h8, h9, h9.trans (mixerWires_t9_eq_iff_t10 p v p' v')⟩
  case lines =>
    exact fun p v => ⟨mixerWires_t3 p v, mixerWires_t4 p v, mixerWires_t5 p v, mixerWires_t6 p v,
      mixerWires_t8 p v, mixerWires_t9 p v, mixerWires_t10 p v⟩
  case byC3 => exact bijective_of_injective (injective_mul_of_odd odd_mixC3)
  case byC4 => exact bijective_of_injective (injective_mul_of_odd odd_mixC4)
  case byC5 => exact bijective_of_injective (injective_mul_of_odd odd_mixC5)
  case byC6 => exact bijective_of_injective (injective_mul_of_odd odd_mixC6)
  case shiftXor => exact fun n hn => bijective_of_injective (injective_xor_ushiftRight hn)

/-- Settles O20: 0 xored with 0b10001 is 17, and a chain starts on 0. -/
theorem freshChainRotatesBySeventeen : Obligations.FreshChainRotatesBySeventeen := by
  have hamount (v : Word32) : (mixerWires 0 v).r = 17 := by rw [mixerWires_r_eq_xor]; decide
  refine ⟨fun v => ⟨BitVec.zero_xor, hamount v⟩, fun a b => ⟨foldWires_m1 _ _ _ _, ?_⟩⟩
  rw [mixerWires_rv, hamount, rotl32_eq_rotateLeft]
  rfl

/-- Settles O22: the two values of HV13 and HV14 meet in wire t7, and are different values with one result. -/
theorem updateHashIsNotInjective : Obligations.UpdateHashIsNotInjective := by
  have hfirst : updateHash 0 0x3b357ca8 = 0 := by decide
  have hsecond : updateHash 0 0x7587c026 = 0 := by decide
  refine ⟨fun s => ?results, by decide, by decide, by decide, by decide, fun hinj => ?notInjective⟩
  case results => exact ⟨_, _, exec_updateHash _ _ s, hfirst, exec_updateHash _ _ s, hsecond⟩
  case notInjective => exact absurd (hinj (hfirst.trans hsecond.symm)) (by decide)

end Sys2Proof.Machine
end

