-- ==== Sys2Proof/Proofs/CascadeInterleave.lean ====
section
/-!
PROOFS. CascadeInterleave (R71 to R84). The pointers and the fold are separate: COMBINE sees its operands through the two
pointers alone (combine_eq), so collisions are equal pointers, and the fold sees them through the four lanes. Flipping
the top bit of a word is adding it, at every width; the closed forms of the accumulators are laws of shifts and xors.
-/

namespace Sys2Proof

/-! ## Flipping the top bit of a word of any width -/

section TopBit

variable {w : Nat}

theorem add_intMin_add_intMin (x : BitVec w) : x + BitVec.intMin w + BitVec.intMin w = x := by
  have hcancel : BitVec.intMin w + BitVec.intMin w = 0#w := neg_eq_iff_add_eq_zero.mp BitVec.neg_intMin
  rw [BitVec.add_assoc, hcancel, BitVec.add_zero]

/-- The carry out of the top bit is lost, so adding the bit is flipping it. -/
theorem xor_intMin_eq_add (x : BitVec w) : x ^^^ BitVec.intMin w = x + BitVec.intMin w := by
  have hclear {y : BitVec w} (hy : y.getLsbD (w - 1) = false) : y ^^^ BitVec.intMin w = y + BitVec.intMin w := by
    have hand : y &&& BitVec.intMin w = 0#w := (BitVec.and_twoPow y (w - 1)).trans (by simp [hy])
    rw [BitVec.add_eq_or_of_and_eq_zero _ _ hand, or_eq_xor_of_and_eq_zero hand]
  cases htop : x.getLsbD (w - 1)
  case false => exact hclear htop
  case true =>
    have hflipped : (x ^^^ BitVec.intMin w).getLsbD (w - 1) = false := by
      have hw := BitVec.lt_of_getLsbD htop
      rw [BitVec.getLsbD_xor, htop, BitVec.getLsbD_intMin, decide_eq_true (by omega), Bool.xor_self]
    calc x ^^^ BitVec.intMin w
        = (x ^^^ BitVec.intMin w) + BitVec.intMin w + BitVec.intMin w := (add_intMin_add_intMin _).symm
      _ = (x ^^^ BitVec.intMin w ^^^ BitVec.intMin w) + BitVec.intMin w := by rw [hclear hflipped]
      _ = x + BitVec.intMin w := by rw [BitVec.xor_assoc, BitVec.xor_self, BitVec.xor_zero]

theorem xor_intMin_add_xor_intMin (x y : BitVec w) : (x ^^^ BitVec.intMin w) + (y ^^^ BitVec.intMin w) = x + y := by
  calc (x ^^^ BitVec.intMin w) + (y ^^^ BitVec.intMin w)
      = x + y + BitVec.intMin w + BitVec.intMin w := by rw [xor_intMin_eq_add, xor_intMin_eq_add]; ac_rfl
    _ = x + y := add_intMin_add_intMin _

theorem xor_intMin_sub_xor_intMin (x y : BitVec w) : (x ^^^ BitVec.intMin w) - (y ^^^ BitVec.intMin w) = x - y := by
  rw [xor_intMin_eq_add, xor_intMin_eq_add]
  exact add_sub_add_right_eq_sub x y _

/-- Two words whose top bits differ have no top bit in common, before and after both are flipped. -/
theorem xor_intMin_and_xor_intMin {x y : BitVec w} (h : x.getLsbD (w - 1) ≠ y.getLsbD (w - 1)) :
    (x ^^^ BitVec.intMin w) &&& (y ^^^ BitVec.intMin w) = x &&& y := by
  apply BitVec.eq_of_getLsbD_eq
  intro j _
  simp only [BitVec.getLsbD_and, BitVec.getLsbD_xor, BitVec.getLsbD_intMin]
  by_cases hj : j + 1 = w
  · obtain rfl : j = w - 1 := by omega
    have hbool : ∀ p q : Bool, p ≠ q → ((p ^^ true) && (q ^^ true)) = (p && q) := by decide
    simpa [hj] using hbool _ _ h
  · simp [hj]

end TopBit

/-- A word below 2^n has no bit left after a shift by n. -/
theorem ushiftRight_eq_zero_of_toNat_lt {w n : Nat} {x : BitVec w} (h : x.toNat < 2 ^ n) : x >>> n = 0#w := by
  apply BitVec.eq_of_toNat_eq
  rw [BitVec.toNat_ushiftRight, Nat.shiftRight_eq_div_pow, Nat.div_eq_of_lt h, BitVec.toNat_zero]

end Sys2Proof

namespace Sys2Proof.Machine

/-! ## The pointers -/

theorem combine_eq_of_pointers {a b a' b' : Word64} (hpp : (pointerWires a b).pp = (pointerWires a' b').pp)
    (hap : (pointerWires a b).ap = (pointerWires a' b').ap) : combine a b = combine a' b' := by
  rw [combine_eq, combine_eq, hpp, hap]

/-- K1 is odd, so the flip of the selector reaches the top bit of the anchor, and no other (R82). -/
theorem pointerWires_aa_flip (a b b' : Word64) :
    (pointerWires (a ^^^ BitVec.intMin 64) b').aa = (pointerWires a b).aa ^^^ BitVec.intMin 64 := by
  have hodd : BitVec.intMin 64 * foldK1 = BitVec.intMin 64 := by decide
  rw [pointerWires_aa, pointerWires_aa, BitVec.not_xor_left, xor_intMin_eq_add, xor_intMin_eq_add, BitVec.add_mul, hodd]

/-- R82: both flips cancel in each pointer, because the mask stays as it is. -/
theorem combine_flip {a b : Word64} (h : a.getLsbD 63 ≠ (~~~a * foldK1).getLsbD 63) :
    combine (a ^^^ BitVec.intMin 64) (b ^^^ BitVec.intMin 64) = combine a b := by
  have hmask : (pointerWires (a ^^^ BitVec.intMin 64) (b ^^^ BitVec.intMin 64)).am = (pointerWires a b).am := by
    rw [pointerWires_am, pointerWires_am, pointerWires_aa_flip a b]
    exact xor_intMin_and_xor_intMin h
  have hoffset : (pointerWires (a ^^^ BitVec.intMin 64) (b ^^^ BitVec.intMin 64)).ao
      = (pointerWires a b).ao ^^^ BitVec.intMin 64 := by
    rw [pointerWires_ao, hmask, BitVec.not_xor_left, pointerWires_ao]
    ac_rfl
  apply combine_eq_of_pointers
  case hpp => exact xor_intMin_add_xor_intMin a b
  case hap => rw [pointerWires_ap, pointerWires_aa_flip a b, hoffset, xor_intMin_sub_xor_intMin, pointerWires_ap]

/-! ## The accumulators -/

theorem accLow_eq_extractLsb' (h : Word64) : accLow h = h.extractLsb' 0 32 :=
  BitVec.setWidth_eq_extractLsb' (by decide)

theorem accLow_widen (m : Word32) : accLow (widen m) = m :=
  BitVec.setWidth_setWidth_of_le m (by decide) |>.trans (BitVec.setWidth_eq m)

/-- The low half of an accumulator line: what is shifted in from the line before comes from its low half (R75). -/
theorem accLow_xor_shiftLeft (m : Word32) (h : Word64) (n : Nat) :
    accLow (widen m ^^^ (h <<< n)) = m ^^^ (accLow h <<< n) := by
  have hshift : accLow (h <<< n) = accLow h <<< n := BitVec.setWidth_shiftLeft_of_le (by decide)
  calc accLow (widen m ^^^ (h <<< n))
      = accLow (widen m) ^^^ accLow (h <<< n) := BitVec.setWidth_xor
    _ = m ^^^ (accLow h <<< n) := by rw [accLow_widen, hshift]

/-! R80: where the halves of a mixer result stand after the shifts of the fold. -/

theorem widen_toNat (m : Word32) : (widen m).toNat = m.toNat :=
  BitVec.toNat_setWidth_of_le (by decide)

theorem toNat_widen_lt (m : Word32) : (widen m).toNat < 2 ^ 32 := by
  rw [widen_toNat]
  exact m.isLt

theorem toNat_widen_shiftLeft_lt (m : Word32) : (widen m <<< 16).toNat < 2 ^ 48 := by
  have hm := toNat_widen_lt m
  rw [BitVec.toNat_shiftLeft, Nat.shiftLeft_eq]
  omega

theorem toNat_widen_xor_widen_shiftLeft_lt (x y : Word32) : (widen x ^^^ (widen y <<< 16)).toNat < 2 ^ 48 := by
  rw [BitVec.toNat_xor]
  exact Nat.xor_lt_two_pow ((toNat_widen_lt x).trans (by decide)) (toNat_widen_shiftLeft_lt y)

theorem widen_shiftLeft_48 (m : Word32) : widen m <<< 48 = (m.extractLsb' 0 16).setWidth 64 <<< 48 := by
  apply BitVec.eq_of_getLsbD_eq
  intro j hj
  have hlow : j - 48 < 16 := by omega
  simp [widen, hlow]

theorem widen_shiftLeft_32_ushiftRight_48 (m : Word32) :
    (widen m <<< 32) >>> 48 = (m.extractLsb' 16 16).setWidth 64 := by
  apply BitVec.eq_of_getLsbD_eq
  intro j hj
  by_cases hlow : j < 16
  · simp [widen, hj, hlow, show 48 + j < 64 by omega, show ¬ 48 + j < 32 by omega, show 48 + j - 32 = 16 + j by omega]
  · simp [widen, hlow, show ¬ 48 + j < 64 by omega]

section Fold

variable (a b c d : Word32)

theorem accLow_foldWires_h1 : accLow (foldWires a b c d).h1 = (foldWires a b c d).m1 := by
  rw [foldWires_h1, accLow_widen]

theorem accLow_foldWires_h2 :
    accLow (foldWires a b c d).h2 = (foldWires a b c d).m2 ^^^ ((foldWires a b c d).m1 <<< 16) := by
  rw [foldWires_h2, accLow_xor_shiftLeft, accLow_foldWires_h1]

theorem accLow_foldWires_h3 :
    accLow (foldWires a b c d).h3 = (foldWires a b c d).m3 ^^^ ((foldWires a b c d).m2 <<< 16) := by
  rw [foldWires_h3, accLow_xor_shiftLeft, accLow_foldWires_h2, BitVec.shiftLeft_xor_distrib, ← BitVec.shiftLeft_add,
    BitVec.shiftLeft_eq_zero le_rfl, BitVec.xor_zero]

/-! R80: the closed forms. -/

/-- The two shifted terms of line F4. -/
theorem shl_16_and_ushr_48 (h : Word64) : (h <<< 16) &&& (h >>> 48) = 0 :=
  shl_and_ushr_complement h (by decide)

theorem foldWires_h4_eq_rotl64 :
    (foldWires a b c d).h4 = widen (foldWires a b c d).m4 ^^^ rotl64 (foldWires a b c d).h3 16 := by
  have hrotate : rotl64 (foldWires a b c d).h3 16
      = ((foldWires a b c d).h3 <<< 16) ^^^ ((foldWires a b c d).h3 >>> 48) :=
    or_eq_xor_of_and_eq_zero (shl_16_and_ushr_48 _)
  rw [foldWires_h4, hrotate, BitVec.xor_assoc]

theorem foldWires_h2_closed :
    (foldWires a b c d).h2 = widen (foldWires a b c d).m2 ^^^ (widen (foldWires a b c d).m1 <<< 16) := by
  rw [foldWires_h2, foldWires_h1]

theorem foldWires_h3_closed :
    (foldWires a b c d).h3 = widen (foldWires a b c d).m3 ^^^ (widen (foldWires a b c d).m2 <<< 16)
      ^^^ (widen (foldWires a b c d).m1 <<< 32) := by
  rw [foldWires_h3, foldWires_h2_closed, BitVec.shiftLeft_xor_distrib, ← BitVec.shiftLeft_add, BitVec.xor_assoc]

theorem foldWires_h3_ushiftRight :
    (foldWires a b c d).h3 >>> 48 = ((foldWires a b c d).m1.extractLsb' 16 16).setWidth 64 := by
  have hlow : (widen (foldWires a b c d).m3 ^^^ (widen (foldWires a b c d).m2 <<< 16)) >>> 48 = 0#64 :=
    ushiftRight_eq_zero_of_toNat_lt (toNat_widen_xor_widen_shiftLeft_lt _ _)
  rw [foldWires_h3_closed, BitVec.ushiftRight_xor_distrib, hlow, BitVec.zero_xor, widen_shiftLeft_32_ushiftRight_48]

theorem foldWires_h4_closed :
    (foldWires a b c d).h4 = widen (foldWires a b c d).m4 ^^^ (widen (foldWires a b c d).m3 <<< 16)
      ^^^ (widen (foldWires a b c d).m2 <<< 32)
      ^^^ (((foldWires a b c d).m1.extractLsb' 0 16).setWidth 64 <<< 48)
      ^^^ ((foldWires a b c d).m1.extractLsb' 16 16).setWidth 64 := by
  rw [foldWires_h4, foldWires_h3_ushiftRight, foldWires_h3_closed, BitVec.shiftLeft_xor_distrib,
    BitVec.shiftLeft_xor_distrib, ← BitVec.shiftLeft_add, ← BitVec.shiftLeft_add, widen_shiftLeft_48,
    ← BitVec.xor_assoc, ← BitVec.xor_assoc]

end Fold

/-! ## The wires over unbounded numbers (R71) -/

theorem laneLo_toNat (p : Word64) : (laneLo p).toNat = p.toNat % 2 ^ 32 :=
  BitVec.extractLsb'_toNat 0 32 p

theorem laneHi_toNat (p : Word64) : (laneHi p).toNat = p.toNat / 2 ^ 32 := by
  rw [laneHi, BitVec.extractLsb'_toNat, Nat.shiftRight_eq_div_pow, Nat.mod_eq_of_lt]
  have hp : p.toNat < 2 ^ 64 := p.isLt
  omega

theorem accLow_toNat (h : Word64) : (accLow h).toNat = h.toNat % 2 ^ 32 :=
  BitVec.toNat_setWidth 32 h

/-- A line of the fold, whichever accumulator and lane it takes. -/
theorem toNat_foldLine (h : Word64) (lane : Word32) :
    (widen (updateHash (accLow h) lane) ^^^ (h <<< 16)).toNat
      = Reference.updateHash (h.toNat % 2 ^ 32) lane.toNat ^^^ (h.toNat * 2 ^ 16 % 2 ^ 64) := by
  rw [BitVec.toNat_xor, widen_toNat, updateHash_toNat, accLow_toNat, BitVec.toNat_shiftLeft, Nat.shiftLeft_eq]

section FoldToNat

variable (a b c d : Word32)

theorem foldWires_h1_toNat : (foldWires a b c d).h1.toNat = Reference.updateHash 0 a.toNat := by
  rw [foldWires_h1, widen_toNat, foldWires_m1, updateHash_toNat]
  rfl

theorem foldWires_h2_toNat :
    (foldWires a b c d).h2.toNat = Reference.updateHash ((foldWires a b c d).h1.toNat % 2 ^ 32) b.toNat
      ^^^ ((foldWires a b c d).h1.toNat * 2 ^ 16 % 2 ^ 64) := by
  rw [foldWires_h2, foldWires_m2, toNat_foldLine]

theorem foldWires_h3_toNat :
    (foldWires a b c d).h3.toNat = Reference.updateHash ((foldWires a b c d).h2.toNat % 2 ^ 32) c.toNat
      ^^^ ((foldWires a b c d).h2.toNat * 2 ^ 16 % 2 ^ 64) := by
  rw [foldWires_h3, foldWires_m3, toNat_foldLine]

theorem foldWires_h4_toNat :
    (foldWires a b c d).h4.toNat = Reference.updateHash ((foldWires a b c d).h3.toNat % 2 ^ 32) d.toNat
      ^^^ ((foldWires a b c d).h3.toNat * 2 ^ 16 % 2 ^ 64) ^^^ ((foldWires a b c d).h3.toNat / 2 ^ 48) := by
  rw [foldWires_h4, foldWires_m4, BitVec.toNat_xor, toNat_foldLine, BitVec.toNat_ushiftRight,
    Nat.shiftRight_eq_div_pow]

end FoldToNat

/-- R71 line by line: the fold on the lanes, and the lanes on the pointers. -/
theorem combine_toNat (a b : Word64) : (combine a b).toNat = Reference.combine a.toNat b.toNat := by
  rw [combine_eq, BitVec.toNat_mul, foldWires_h4_toNat, foldWires_h3_toNat, foldWires_h2_toNat, foldWires_h1_toNat,
    laneLo_toNat, laneHi_toNat, laneHi_toNat, laneLo_toNat, pointerWires_pp, BitVec.toNat_add,
    pointerWires_ap, BitVec.toNat_sub', pointerWires_ao, BitVec.toNat_xor, BitVec.toNat_not,
    pointerWires_am, BitVec.toNat_and, pointerWires_aa, BitVec.toNat_mul, BitVec.toNat_not]
  rfl

/-! ## One mixer used four times (R84) -/

section Rounds

variable (pp ap : Word64)

/-- The fold on the lanes of two pointers, in the order of R75. -/
def foldOfPointers : FoldWires :=
  foldWires (laneLo ap) (laneHi ap) (laneHi pp) (laneLo pp)

theorem Sequencer.tick_start : Sequencer.start.tick pp ap = { round := 1, acc := (foldOfPointers pp ap).h1 } := by
  have hshift : widen chainStart <<< 16 = 0#64 := by decide
  have hfirst : widen (updateHash (accLow (widen chainStart)) (laneLo ap)) ^^^ (widen chainStart <<< 16)
      = (foldOfPointers pp ap).h1 := by
    rw [hshift, BitVec.xor_zero, accLow_widen]
    rfl
  rw [← hfirst]
  rfl

theorem Sequencer.tick_one :
    Sequencer.tick pp ap { round := 1, acc := (foldOfPointers pp ap).h1 }
      = { round := 2, acc := (foldOfPointers pp ap).h2 } := rfl

theorem Sequencer.tick_two :
    Sequencer.tick pp ap { round := 2, acc := (foldOfPointers pp ap).h2 }
      = { round := 3, acc := (foldOfPointers pp ap).h3 } := rfl

theorem Sequencer.tick_three :
    Sequencer.tick pp ap { round := 3, acc := (foldOfPointers pp ap).h3 }
      = { round := 4, acc := (foldOfPointers pp ap).h4 } := rfl

/-- After each round the register holds the accumulator of that line of the chain. -/
theorem Sequencer.ticks_four :
    Sequencer.ticks pp ap 4 Sequencer.start = { round := 4, acc := (foldOfPointers pp ap).h4 } := by
  simp only [Sequencer.ticks, tick_start, tick_one, tick_two, tick_three]

end Rounds

theorem combineIterated_eq_combine (a b : Word64) : combineIterated a b = combine a b := by
  rw [combineIterated, Sequencer.ticks_four, combine_eq]
  rfl

theorem combineWith_eq_combine (iterated : Bool) (a b : Word64) : combineWith iterated a b = combine a b := by
  cases iterated with
  | false => rfl
  | true => exact combineIterated_eq_combine a b

/-! ## The final multiplication (R79) -/

theorem odd_foldK2 : Odd foldK2.toNat := by decide

/-! ## The obligations -/

/-- Settles O23: the wires over unbounded numbers; the collision is that of the pair 3, 5 with both top bits flipped. -/
theorem combineMatchesUnboundedArithmetic : Obligations.CombineMatchesUnboundedArithmetic := by
  refine ⟨?refines, ?selectorZero, ?selectorOnes, ?indexOnes, ?collision, ?workedExample⟩
  case refines => exact fun a b s => ⟨_, exec_combine a b s, rfl, combine_toNat a b⟩
  case selectorZero =>
    intro b
    rw [combineWires_pointers, pointerWires_am, pointerWires_aa]
    decide
  case selectorOnes =>
    intro b
    rw [combineWires_pointers, pointerWires_am, pointerWires_aa]
    decide
  case indexOnes =>
    intro a ham
    rw [combineWires_pointers] at ham ⊢
    rw [pointerWires_ao, ham]
    decide
  case collision => exact ⟨3 ^^^ BitVec.intMin 64, 5 ^^^ BitVec.intMin 64, 3, 5, by decide, combine_flip (by decide)⟩
  case workedExample => decide

/-- Settles O24: the accumulators are in the chain's order, and the low half of each is read off its line. -/
theorem roundsConsumeTheLanesInOrder : Obligations.RoundsConsumeTheLanesInOrder := by
  intro a b
  simp only [combineWires_fold, ← accLow_eq_extractLsb']
  refine ⟨?m1, ?m2, ?m3, ?m4, ?h1, ?h2, ?h3⟩
  case m1 => exact foldWires_m1 _ _ _ _
  case m2 => exact foldWires_m2 _ _ _ _
  case m3 => exact foldWires_m3 _ _ _ _
  case m4 => exact foldWires_m4 _ _ _ _
  case h1 => exact accLow_foldWires_h1 _ _ _ _
  case h2 => exact accLow_foldWires_h2 _ _ _ _
  case h3 => exact accLow_foldWires_h3 _ _ _ _

/-- Settles O25: the closed forms, and the bounds read off them; both top bits are set for the pair 0, 2 (CV6). -/
theorem accumulatorClosedForms : Obligations.AccumulatorClosedForms := by
  refine ⟨fun a b c d => ?_, 0, 2, by decide⟩
  have hdisjoint := shl_16_and_ushr_48 (foldWires a b c d).h3
  refine ⟨hdisjoint, (or_eq_xor_of_and_eq_zero hdisjoint).symm, foldWires_h4_eq_rotl64 a b c d, foldWires_h1 a b c d,
    foldWires_h2_closed a b c d, foldWires_h3_closed a b c d, foldWires_h4_closed a b c d, ?boundH1, ?boundH2⟩
  case boundH1 => exact toNat_widen_lt _
  case boundH2 =>
    rw [foldWires_h2_closed]
    exact toNat_widen_xor_widen_shiftLeft_lt _ _

/-- Settles O26: K2 is odd. -/
theorem finalMultiplyIsABijection : Obligations.FinalMultiplyIsABijection :=
  ⟨fun a b s => ⟨_, exec_combine a b s, rfl⟩, bijective_of_injective (injective_mul_of_odd odd_foldK2)⟩

/-- Settles O27: both pointers stay as they are; DERIVE reads the pair through COMBINE alone. -/
theorem topBitFlipsCollide : Obligations.TopBitFlipsCollide := by
  have hderive {a b a' b' : Word64} (h : combine a b = combine a' b') : derive a b = derive a' b' := by
    rw [derive_eq, derive_eq, h]
  refine ⟨?family, ?selectorOnes, by decide, by decide, by decide, by decide, by decide, by decide⟩
  case family =>
    intro a b htop
    have hcombine := combine_flip (b := b) htop
    exact ⟨hcombine, fun s => ⟨_, _, exec_derive _ _ s, exec_derive _ _ s, hderive hcombine⟩⟩
  case selectorOnes =>
    intro b
    exact (combine_flip (a := 0xFFFFFFFFFFFFFFFF) (by decide)).symm

/-- Settles O28: each round of the one mixer is the next line of the chain. -/
theorem oneMixerOrFourGiveTheSameState : Obligations.OneMixerOrFourGiveTheSameState :=
  ⟨combineIterated_eq_combine, fun a b s => ⟨_, exec_combine a b s, combineWith_eq_combine _ a b⟩⟩

end Sys2Proof.Machine
end

