-- ==== Sys2Proof/Proofs/Extract.lean ====
section
/-!
PROOFS. Extract (R85 to R90). The windows and the rotate amount are fields of the state; the value is the low half of
the state rotated left by the amount. Both are said of any state, so that the statements about DERIVE follow by taking
the state COMBINE gives (derive_eq).
-/

namespace Sys2Proof

/-! ## Fields and rotates of words of any width -/

section Fields

variable {w n l m : Nat}

/-- A field that reaches past the top of the word holds zeros there. -/
theorem extractLsb'_eq_setWidth_of_le (x : BitVec w) (htop : w ≤ n + l) :
    x.extractLsb' n m = (x.extractLsb' n l).setWidth m := by
  apply BitVec.eq_of_getLsbD_eq
  intro j hj
  by_cases hjl : j < l
  · simp [hj, hjl]
  · simp [hjl, BitVec.getLsbD_of_ge x (n + j) (by omega)]

/-- A field of a field is a field of the word. -/
theorem extractLsb'_extractLsb' (x : BitVec w) {k : Nat} (h : k + m ≤ l) :
    (x.extractLsb' n l).extractLsb' k m = x.extractLsb' (n + k) m := by
  apply BitVec.eq_of_getLsbD_eq
  intro j hj
  simp [hj, show k + j < l by omega, Nat.add_assoc]

/-- The copies of the sign that an arithmetic shift brings in stand above every field of the word (R87). -/
theorem setWidth_sshiftRight_eq_extractLsb' (x : BitVec w) (h : n + l ≤ w) :
    (x.sshiftRight n).setWidth l = x.extractLsb' n l := by
  apply BitVec.eq_of_getLsbD_eq
  intro j hj
  rw [BitVec.getLsbD_setWidth, BitVec.getLsbD_sshiftRight, BitVec.getLsbD_extractLsb']
  simp [show ¬ w ≤ j by omega, show n + j < w by omega]

/-- A left-rotate is the right-rotate by the complementary amount, 0 included. -/
theorem rotateLeft_eq_rotateRight_mod {k : Nat} (x : BitVec w) (hk : k < w) :
    x.rotateLeft k = x.rotateRight ((w - k) % w) := by
  rcases Nat.eq_zero_or_pos k with rfl | hpos
  · simp [rotateLeft_zero, BitVec.rotateRight_def]
  · rw [BitVec.rotateRight_mod_eq_rotateRight, rotateLeft_eq_rotateRight x hpos hk]

end Fields

end Sys2Proof

namespace Sys2Proof.Machine

/-! ## The windows (R86) -/

section OfState

variable (state : Word64)

theorem windowLo_eq_extractLsb' : windowLo state = state.extractLsb' 0 32 :=
  BitVec.setWidth_eq_extractLsb' (by decide)

theorem windowMid_eq_extractLsb' : windowMid state = state.extractLsb' 29 32 :=
  BitVec.setWidth_ushiftRight_eq_extractLsb

theorem windowHi_eq_extractLsb' : windowHi state = state.extractLsb' 58 32 :=
  BitVec.setWidth_ushiftRight_eq_extractLsb

theorem windowHi_eq_setWidth : windowHi state = (state.extractLsb' 58 6).setWidth 32 := by
  rw [windowHi_eq_extractLsb', extractLsb'_eq_setWidth_of_le state (l := 6) (by decide)]

theorem getLsbD_windowHi_of_le {j : Nat} (hj : 6 ≤ j) : (windowHi state).getLsbD j = false := by
  rw [windowHi_eq_setWidth, BitVec.getLsbD_setWidth, BitVec.getLsbD_of_ge _ j hj, Bool.and_false]

/-! ## The rotate amount (R87) -/

/-- The mask comes last, so it makes no difference at which width the windows are xored. -/
theorem extractAmount_setWidth (x y z : Word64) :
    extractAmount (x.setWidth 32) (y.setWidth 32) (z.setWidth 32) = (x ^^^ y ^^^ z).setWidth 6 := by
  rw [extractAmount, ← BitVec.setWidth_xor, ← BitVec.setWidth_xor, BitVec.setWidth_setWidth_of_le _ (by decide)]

theorem rotAmount_eq_setWidth :
    (extractWires state).rotAmount = (state ^^^ (state >>> 29) ^^^ (state >>> 58)).setWidth 6 :=
  extractAmount_setWidth _ _ _

theorem rotAmount_eq_fields :
    (extractWires state).rotAmount
      = state.extractLsb' 0 6 ^^^ state.extractLsb' 29 6 ^^^ state.extractLsb' 58 6 := by
  rw [rotAmount_eq_setWidth, BitVec.setWidth_xor, BitVec.setWidth_xor, BitVec.setWidth_ushiftRight_eq_extractLsb,
    BitVec.setWidth_ushiftRight_eq_extractLsb, BitVec.setWidth_eq_extractLsb' (by decide)]

theorem rotAmount_eq_setWidth_sshiftRight :
    (extractWires state).rotAmount = (state ^^^ state.sshiftRight 29 ^^^ state.sshiftRight 58).setWidth 6 := by
  rw [rotAmount_eq_fields, BitVec.setWidth_xor, BitVec.setWidth_xor,
    setWidth_sshiftRight_eq_extractLsb' state (by decide), setWidth_sshiftRight_eq_extractLsb' state (by decide),
    BitVec.setWidth_eq_extractLsb' (by decide)]

theorem rotAmount_toNat : (extractWires state).rotAmount.toNat = Reference.rotAmount state.toNat := by
  rw [extractWires_rotAmount, extractAmount, windowLo, windowMid, windowHi, BitVec.toNat_setWidth, BitVec.toNat_xor,
    BitVec.toNat_xor, BitVec.toNat_setWidth, BitVec.toNat_setWidth, BitVec.toNat_setWidth, BitVec.toNat_ushiftRight,
    BitVec.toNat_ushiftRight, Nat.shiftRight_eq_div_pow, Nat.shiftRight_eq_div_pow]
  rfl

/-! ## The value (R85, R89) -/

theorem extractWires_value_eq_rotateLeft :
    (extractWires state).value = (state.rotateLeft (extractWires state).rotAmount.toNat).setWidth 32 := by
  rw [extractWires_value, extractWires_rotated, rotl64_eq_rotateLeft]

theorem extractWires_value_of_rotAmount_zero (h : (extractWires state).rotAmount = 0) :
    (extractWires state).value = state.extractLsb' 0 32 := by
  rw [extractWires_value, extractWires_rotated, h, rotl64_zero, BitVec.setWidth_eq_extractLsb' (by decide)]

theorem extractWires_value_of_rotAmount_32 (h : (extractWires state).rotAmount = 32) :
    (extractWires state).value = state.extractLsb' 32 32 := by
  have hamount : BitVec.toNat (32 : Amount64) = 32 := by decide
  rw [extractWires_value_eq_rotateLeft, h, hamount, rotateLeft_32_eq_swap, BitVec.setWidth_eq_extractLsb' (by decide),
    extract_append_low]

theorem getLsbD_extractWires_value {j : Nat} (hj : j < 32) :
    (extractWires state).value.getLsbD j
      = state.getLsbD ((j + 64 - (extractWires state).rotAmount.toNat) % 64) := by
  rw [extractWires_value_eq_rotateLeft, BitVec.getLsbD_setWidth, decide_eq_true hj, Bool.true_and,
    getLsbD_rotateLeft_eq_mod state (extractWires state).rotAmount.isLt.le (by omega)]

theorem extractWires_value_eq_rotateRight :
    (extractWires state).value
      = (state.rotateRight ((64 - (extractWires state).rotAmount.toNat) % 64)).setWidth 32 := by
  rw [extractWires_value_eq_rotateLeft, rotateLeft_eq_rotateRight_mod state (extractWires state).rotAmount.isLt]

theorem extractWires_value_toNat :
    (extractWires state).value.toNat
      = Reference.rotl 64 state.toNat (Reference.rotAmount state.toNat) % 2 ^ 32 := by
  rw [extractWires_value_eq_rotateLeft, BitVec.toNat_setWidth,
    toNat_rotateLeft_eq_rotl state (extractWires state).rotAmount.isLt, rotAmount_toNat]

end OfState

/-- R85 over unbounded numbers: COMBINE (R71), and the value from its state. -/
theorem derive_toNat (a b : Word64) : (derive a b).toNat = Reference.derive a.toNat b.toNat := by
  rw [derive_eq, extractWires_value_toNat, combine_toNat]
  rfl

/-- DERIVE reads the pair through COMBINE alone, so a collision of COMBINE is one of DERIVE. -/
theorem derive_eq_of_combine_eq {a b a' b' : Word64} (h : combine a b = combine a' b') : derive a b = derive a' b' := by
  rw [derive_eq, derive_eq, h]

/-! ## The amounts that occur (R88) -/

/-- For each rotate amount from 0 on, the first pair that has it, selectors before indices. -/
def pairsByAmount : List (Word64 × Word64) :=
  [(0, 9), (0, 52), (0, 2), (3, 14), (1, 2), (2, 24), (0, 44), (2, 28),
   (0, 22), (0, 0), (0, 27), (1, 32), (0, 43), (0, 33), (1, 22), (3, 38),
   (0, 55), (2, 11), (0, 42), (0, 39), (0, 57), (1, 51), (0, 12), (0, 47),
   (3, 33), (0, 6), (0, 5), (2, 45), (0, 7), (4, 35), (0, 21), (0, 1),
   (0, 10), (0, 54), (1, 35), (2, 8), (0, 59), (0, 14), (0, 49), (0, 3),
   (1, 21), (3, 50), (0, 17), (0, 37), (0, 26), (0, 58), (0, 40), (0, 8),
   (0, 51), (0, 18), (0, 34), (0, 48), (0, 30), (5, 53), (0, 16), (1, 52),
   (0, 36), (0, 32), (0, 4), (4, 59), (1, 49), (0, 11), (1, 7), (1, 0)]

/-- The pair listed for an amount. -/
def pairOfAmount (n : Nat) : Word64 × Word64 :=
  pairsByAmount.getD n (0, 0)

/-- The table, one row of eight at a time. -/
theorem rotAmount_pairOfAmount_row : ∀ row column : Fin 8,
    (pairOfAmount (8 * row + column)).1.toNat < 64 ∧ (pairOfAmount (8 * row + column)).2.toNat < 64
    ∧ (extractWires (combine (pairOfAmount (8 * row + column)).1 (pairOfAmount (8 * row + column)).2)).rotAmount.toNat
        = 8 * row + column := by
  decide

theorem exists_pair_of_amount (amount : Amount64) :
    ∃ a b : Word64, a.toNat < 64 ∧ b.toNat < 64 ∧ (extractWires (combine a b)).rotAmount = amount := by
  have hlt : amount.toNat < 64 := amount.isLt
  have hrow := rotAmount_pairOfAmount_row ⟨amount.toNat / 8, by omega⟩ ⟨amount.toNat % 8, by omega⟩
  simp only [Nat.div_add_mod] at hrow
  obtain ⟨hselector, hindex, hamount⟩ := hrow
  exact ⟨_, _, hselector, hindex, BitVec.eq_of_toNat_eq hamount⟩

/-! ## The two views of a result (R90) -/

theorem asSigned32_of_bit_clear {v : Word32} (h : v.getLsbD 31 = false) : asSigned32 v = (v.toNat : Int) :=
  BitVec.toInt_eq_toNat_of_msb ((BitVec.msb_eq_getLsbD_last v).trans h)

theorem asSigned32_of_bit_set {v : Word32} (h : v.getLsbD 31 = true) : asSigned32 v = (v.toNat : Int) - 2 ^ 32 := by
  rw [asSigned32, BitVec.toInt_eq_msb_cond, if_pos ((BitVec.msb_eq_getLsbD_last v).trans h)]
  rfl

/-- The feedback strategy takes the output in with zeros above it (R52). -/
theorem StreamIterator.advance_curIndex_toNat {it : StreamIterator} (h : it.strategy = .feedback) (out : Word32) :
    (it.advance out).curIndex.toNat = it.curIndex.toNat % 2 ^ 32 * 2 ^ 32 + out.toNat := by
  obtain ⟨_, a, b⟩ := it
  obtain rfl := h
  rw [StreamIterator.advance_feedback, BitVec.toNat_append, ← Nat.shiftLeft_add_eq_or_of_lt out.isLt,
    BitVec.extractLsb'_toNat, Nat.shiftLeft_eq, Nat.shiftRight_zero]

/-! ## The obligations -/

/-- Settles O29: the value over unbounded numbers; the collision is that of the pair 3, 5 with both top bits flipped. -/
theorem deriveMatchesUnboundedArithmetic : Obligations.DeriveMatchesUnboundedArithmetic := by
  refine ⟨?refines, ?amountZero, ?amount32, ?collision, ?workedExample⟩
  case refines => exact fun a b s => ⟨_, exec_derive a b s, rfl, derive_toNat a b⟩
  case amountZero => exact fun a b h => extractWires_value_of_rotAmount_zero _ h
  case amount32 => exact fun a b h => extractWires_value_of_rotAmount_32 _ h
  case collision =>
    exact ⟨3 ^^^ BitVec.intMin 64, 5 ^^^ BitVec.intMin 64, 3, 5, by decide,
      derive_eq_of_combine_eq (combine_flip (by decide))⟩
  case workedExample => decide

/-- Settles O30: the windows are fields of the state, so an overlap is a field of both; the pair 0, 0 tells bit 28 from
bit 29. -/
theorem windowsOfTheState : Obligations.WindowsOfTheState := by
  refine ⟨fun state => ?windows, fun a b s => ⟨_, exec_derive a b s, rfl⟩, 0, 0, by decide⟩
  refine ⟨windowLo_eq_extractLsb' state, windowMid_eq_extractLsb' state, rfl, rfl, windowHi_eq_setWidth state,
    fun j => getLsbD_windowHi_of_le state, ?loMid, ?midHi⟩
  case loMid =>
    rw [extractWires_wLo, extractWires_wMid, windowLo_eq_extractLsb', windowMid_eq_extractLsb',
      extractLsb'_extractLsb' state (by decide), extractLsb'_extractLsb' state (by decide)]
  case midHi =>
    rw [extractWires_wMid, extractWires_wHi, windowMid_eq_extractLsb', windowHi_eq_extractLsb',
      extractLsb'_extractLsb' state (by decide), extractLsb'_extractLsb' state (by decide)]

/-- Settles O31: the amount is the xor of the three fields, and each other form of it shows the same fields. -/
theorem rotateAmountNeedsEighteenBits : Obligations.RotateAmountNeedsEighteenBits := by
  refine ⟨fun state => ⟨rotAmount_eq_fields state, ?arithmetic32, rotAmount_eq_setWidth state,
    rotAmount_eq_setWidth_sshiftRight state⟩, ?sameFields⟩
  case arithmetic32 => rw [extractAmount_setWidth, rotAmount_eq_setWidth_sshiftRight]
  case sameFields =>
    intro st st' hlow hmid hhigh
    rw [rotAmount_eq_fields, rotAmount_eq_fields, hlow, hmid, hhigh]

/-- Settles O32: a pair is known for every amount; a rotate by 0 leaves the state as it is. -/
theorem everyRotateAmountOccurs : Obligations.EveryRotateAmountOccurs := by
  refine ⟨exists_pair_of_amount, ?bound, ?zeroIff, ?zero, by decide, by decide, by decide, by decide, by decide,
    by decide⟩
  case bound => exact fun a b => Nat.le_of_lt_succ (extractWires (combine a b)).rotAmount.isLt
  case zeroIff => exact fun state => by rw [rotAmount_eq_fields]
  case zero =>
    intro a b s h
    refine ⟨?rotated, _, exec_derive a b s, extractWires_value_of_rotAmount_zero _ h⟩
    rw [extractWires_rotated, h, rotl64_zero]

/-- Settles O33: the value's bits are those of the rotated state. -/
theorem outputIsACyclicWindowOfTheState : Obligations.OutputIsACyclicWindowOfTheState := by
  intro a b s
  refine ⟨_, exec_derive a b s, ?bits, ?lowest, extractWires_value_eq_rotateRight _⟩
  case bits => exact fun j hj => getLsbD_extractWires_value _ hj
  case lowest =>
    have hbit := getLsbD_extractWires_value (combine a b) (show 0 < 32 by decide)
    rwa [Nat.zero_add] at hbit

/-- Settles O34: bit 31 is the sign bit; the feedback index is a concatenation of halves. -/
theorem signedAndUnsignedViewOfAResult : Obligations.SignedAndUnsignedViewOfAResult :=
  ⟨fun _ => asSigned32_of_bit_clear, fun _ => asSigned32_of_bit_set, fun _ => BitVec.ofInt_toInt,
    fun _ out h => StreamIterator.advance_curIndex_toNat h out, by decide, by decide, by decide⟩

end Sys2Proof.Machine
end

