-- ==== Sys2Proof/Proofs/Exceptions.lean ====
section
/-!
PROOFS. No exceptions and no interrupts (R92, R94, R99). The step, like an evaluation, is an update of the state's ports,
so its only outcome is a next state; and the step after several requests sees the last of them alone.
-/

namespace Sys2Proof.Machine

/-! ## Outcomes -/

/-- The step completes, and writes the ports of the unit whose request is driven (R92, R107). -/
theorem step_eq_setPorts (s : State) :
    step s = .next (s.setPorts (decode s.request).operation (decode s.request).ports) := by
  rw [step_eq, exec_eq_setPorts]

/-- The block has no fault to raise (R92, R93). -/
theorem not_fault (f : Fault) : False := nomatch f

/-! ## Abandoned requests -/

/-- A request that is abandoned before the step is not evaluated, and the state does not remember it (R94). -/
theorem step_present_present (i j : Instr) (s : State) : step ((s.present i).present j) = exec j (s.present j) := by
  rw [State.present_present, step_present]

/-! ## The obligations -/

/-- Settles O13: the step sees the second request alone, its evaluation completes, and an evaluation leaves the request
lines as they are. -/
theorem stepAnswersTheLastRequestPresented : Obligations.StepAnswersTheLastRequestPresented := by
  intro i j s
  have hexec := exec_eq_setPorts j (s.present j)
  refine ⟨_, ?step, hexec, ?request⟩
  case step => rw [step_present_present, hexec]
  case request => rw [request_of_exec hexec, State.present_request]

/-- Settles O10: an evaluation and a step are updates of ports, whatever the state. -/
theorem noOperationRaisesAnything : Obligations.NoOperationRaisesAnything :=
  ⟨fun i s => ⟨_, exec_eq_setPorts i s⟩, fun s => ⟨_, step_eq_setPorts s⟩, not_fault⟩

end Sys2Proof.Machine
end

