-- ==== Sys2Proof/Proofs/ResetAndHazards.lean ====
section
/-!
PROOFS. Reset, history and hazards (R103, R107). The step evaluates the request on the input lines; a host sequence and an
implementation with requests in flight answer each request by its own pair, whatever stood in the block before.
-/

namespace Sys2Proof

/-- An encoded evaluation, read as an operand word of its own operation, is the word it was encoded to (R39). -/
theorem ofNat_operation_encodeWord (i : Instr) : OperandWord.ofNat i.operation (encodeWord i) = encode i := by
  rw [encodeWord, ← operation_encode, OperandWord.ofNat_toNat]

end Sys2Proof

namespace Sys2Proof.Machine

/-! ## The pipeline -/

@[simp] theorem Pipeline.clock_nil (q : PairRequest) :
    Pipeline.clock { inFlight := [] } q = (q.answer, { inFlight := [] }) := rfl

@[simp] theorem Pipeline.clock_cons (oldest q : PairRequest) (rest : List PairRequest) :
    Pipeline.clock { inFlight := oldest :: rest } q = (oldest.answer, { inFlight := rest ++ [q] }) := rfl

@[simp] theorem Pipeline.outputs_nil (p : Pipeline) : p.outputs [] = [] := rfl

@[simp] theorem Pipeline.outputs_cons (p : Pipeline) (q : PairRequest) (qs : List PairRequest) :
    p.outputs (q :: qs) = (p.clock q).1 :: (p.clock q).2.outputs qs := rfl

@[simp] theorem Pipeline.length_inFlight_powerUp : Pipeline.powerUp.inFlight.length = Config.latency := by
  simp [Pipeline.powerUp]

/-- R103 (b): the requests in flight and then those that enter form one queue, answered from its front. -/
theorem Pipeline.outputs_eq (p : Pipeline) (qs : List PairRequest) :
    p.outputs qs = ((p.inFlight ++ qs).take qs.length).map PairRequest.answer := by
  induction qs generalizing p with
  | nil => simp
  | cons q qs ih =>
    obtain ⟨_ | ⟨oldest, rest⟩⟩ := p
    · simp [ih]
    · have hqueue : rest ++ [q] ++ qs = rest ++ q :: qs := by simp
      simp [ih, hqueue]

/-- After one word for each request that was in flight, the words left are the answers to the requests that entered. -/
theorem Pipeline.drop_outputs (p : Pipeline) (qs : List PairRequest) :
    (p.outputs qs).drop p.inFlight.length
      = (qs.take (qs.length - p.inFlight.length)).map PairRequest.answer := by
  rw [Pipeline.outputs_eq, ← List.map_drop, List.drop_take, List.drop_left]

/-! ## The obligations -/

/-- Settles O41: the pipeline is a queue answered from its front; dropping what the registers held at power-up, or holding
nothing, leaves the requests that entered. -/
theorem pipelinedResponsesAreTheirRequestsOwn : Obligations.PipelinedResponsesAreTheirRequestsOwn := by
  refine ⟨Pipeline.outputs_eq, ?afterLatency, ?noRegister⟩
  case afterLatency =>
    intro qs
    have hdrop := Pipeline.powerUp.drop_outputs qs
    rwa [Pipeline.length_inFlight_powerUp] at hdrop
  case noRegister =>
    intro qs
    have hqueue := Pipeline.outputs_eq { inFlight := [] } qs
    rwa [List.nil_append, List.take_length] at hqueue

/-- Settles O40: both runs give the outputs along the same iterates, and end at the same one. -/
theorem hostSequenceHasNoOtherHistory : Obligations.HostSequenceHasNoOtherHistory := by
  intro length it s s'
  obtain ⟨t, ht⟩ := StreamIterator.run_eq_iterate length it s
  obtain ⟨t', ht'⟩ := StreamIterator.run_eq_iterate length it s'
  exact ⟨_, _, t, t', ht, ht', by rw [List.length_map, List.length_range]⟩

/-- Settles O1: a number that decodes is the encoding of its evaluation, so driving it is presenting that evaluation. -/
theorem stepRunsTheRequestedEvaluation : Obligations.StepRunsTheRequestedEvaluation := by
  refine ⟨?decoded, step_eq⟩
  case decoded =>
    intro s op w i hdecode
    obtain ⟨rfl, rfl⟩ := decodeWord_eq_ok_iff.mp hdecode
    rw [ofNat_operation_encodeWord]
    exact step_present i s

end Sys2Proof.Machine
end
